-- ==== Sys2Proof/Word.lean ====
section
/-! DEFINITION. The machine's word and byte (00_scope.md R7, R8: every generator word and register is 64 bits; 20_memory.md R91: the
entropy port delivers bytes). -/

namespace Sys2Proof

/-- A 64-bit unsigned value (R8). Addition and multiplication wrap modulo 2^64 (R9). -/
abbrev Word := BitVec 64

/-- A byte of the entropy port, `ent_data[7:0]` (R53). -/
abbrev Byte := BitVec 8

end Sys2Proof
end

