-- ==== Sys2Proof/Syntax.lean ====
section
/-! DEFINITION. The command set: one constructor per row of opcode_table.json (30_encoding.md R108). -/

namespace Sys2Proof

/-- A command, in the assembler's terms (R112). `algo` is the ALGO field's code (R104), with the reserved codes 0, 6 and 7, which are legal
words and fault when executed. `w` is the rotation width W and `sh` the shift amount SH (R105, R106). -/
inductive Instr where
  /-- 0x00 NOP (41 R159). -/
  | nop
  /-- 0x01 SEED, construct from explicit seed (41 R154). -/
  | seed (algo : Nat)
  /-- 0x02 SEEDENT, construct from entropy (41 R155). -/
  | seedent (algo : Nat)
  /-- 0x03 SEEDDRAW, construct by drawing from the current generator (41 R156). -/
  | seeddraw (algo : Nat)
  /-- 0x04 NEXT (41 R157). -/
  | next
  /-- 0x05 JUMP (45 R224). -/
  | jump
  /-- 0x06 LJUMP (45 R225). -/
  | ljump
  /-- 0x07 UDBL (46 R242). -/
  | udbl
  /-- 0x08 UFLT (46 R243). -/
  | uflt
  /-- 0x09 CMPST (41 R158). -/
  | cmpst
  /-- 0x10 ROTL (40 R132). -/
  | rotl (w sh : Nat)
  /-- 0x11 ROTR (40 R133). -/
  | rotr (w sh : Nat)
  /-- 0x12 ROTLI (40 R134). -/
  | rotli (w sh : Nat)
  /-- 0x13 ROTRI (40 R135). -/
  | rotri (w sh : Nat)
  /-- 0xFF SRESET (41 R160). -/
  | sreset
  deriving DecidableEq, Repr

end Sys2Proof
end

