-- ==== Sys2Proof/WellFormed.lean ====
section
/-! DEFINITION. Which commands an encoding exists for: the assembler's checks (30_encoding.md R112: "An assembler rejects W outside the set
and s outside 0 to 63, because neither fits its field"). -/

namespace Sys2Proof

/-- An ALGO code fits its 3-bit field (R102); the reserved codes fit too (R104, `SEED #6`). -/
def algoFits (a : Nat) : Bool := decide (a < 8)

/-- ROT_WIDTHS (00 R7; R105): the widths a WC code stands for. -/
def widthOk (w : Nat) : Bool := w == 8 || w == 16 || w == 32 || w == 64

/-- A shift amount fits its 6-bit field (R106), whether or not it is in range when executed. -/
def shiftFits (sh : Nat) : Bool := decide (sh < 64)

/-- The command has an encoding. -/
def Instr.wellFormed : Instr → Bool
  | .nop => true
  | .seed a => algoFits a
  | .seedent a => algoFits a
  | .seeddraw a => algoFits a
  | .next => true
  | .jump => true
  | .ljump => true
  | .udbl => true
  | .uflt => true
  | .cmpst => true
  | .rotl w sh => widthOk w && shiftFits sh
  | .rotr w sh => widthOk w && shiftFits sh
  | .rotli w sh => widthOk w && shiftFits sh
  | .rotri w sh => widthOk w && shiftFits sh
  | .sreset => true

end Sys2Proof
end

