-- ==== Sys2Proof/Decode.lean ====
section
/-! DEFINITION. Decoding a command word, and encoding a command (30_encoding.md R100 to R109). Decoding depends on no mode and no state
(R111). -/

namespace Sys2Proof

/-- Why a word is not legal (R109). Both raise ILLEGAL_OPCODE when executed (60 R252). -/
inductive DecodeError where
  /-- OPC is one of the 241 unassigned opcodes. -/
  | unassignedOpcode
  /-- OPC is assigned and a reserved bit of its format is set. -/
  | reservedBitSet
  deriving DecidableEq, Repr

/-- `x[hi:lo]` (00 R8), as a number. -/
def bits (c : Word) (hi lo : Nat) : Nat := (c.extractLsb' lo (hi - lo + 1)).toNat

/-- Format N (R101): bits [63:8] reserved. -/
def decodeN (i : Instr) (c : Word) : Except DecodeError Instr :=
  if bits c 63 8 = 0 then .ok i else .error .reservedBitSet

/-- Format S (R102): bits [63:11] reserved, ALGO in [10:8]. -/
def decodeS (f : Nat → Instr) (c : Word) : Except DecodeError Instr :=
  if bits c 63 11 = 0 then .ok (f (bits c 10 8)) else .error .reservedBitSet

/-- Format R (R103): bits [63:22], [15:14] and [11:8] reserved, WC in [13:12] with W = 8 << WC (R105), SH in [21:16] (R106). -/
def decodeR (f : Nat → Nat → Instr) (c : Word) : Except DecodeError Instr :=
  if bits c 63 22 = 0 ∧ bits c 15 14 = 0 ∧ bits c 11 8 = 0 then
    .ok (f (8 <<< bits c 13 12) (bits c 21 16))
  else .error .reservedBitSet

/-- The opcode map (R108). -/
def decode (c : Word) : Except DecodeError Instr :=
  match bits c 7 0 with
  | 0x00 => decodeN .nop c
  | 0x01 => decodeS .seed c
  | 0x02 => decodeS .seedent c
  | 0x03 => decodeS .seeddraw c
  | 0x04 => decodeN .next c
  | 0x05 => decodeN .jump c
  | 0x06 => decodeN .ljump c
  | 0x07 => decodeN .udbl c
  | 0x08 => decodeN .uflt c
  | 0x09 => decodeN .cmpst c
  | 0x10 => decodeR .rotl c
  | 0x11 => decodeR .rotr c
  | 0x12 => decodeR .rotli c
  | 0x13 => decodeR .rotri c
  | 0xFF => decodeN .sreset c
  | _ => .error .unassignedOpcode

/-- The instruction in an opcode-table word of `nbits` bits: every bit above `nbits` is 0. A command is one 64-bit word written to CMD
(R100), so the table's numbering and the word's are one. -/
def decodeTableWord (nbits w : Nat) : Option Instr :=
  match decode (BitVec.ofNat 64 (w % 2 ^ nbits)) with
  | .ok i => some i
  | .error _ => none

/-- The opcode OPC of a command (R108). -/
def opcodeOf : Instr → Nat
  | .nop => 0x00
  | .seed _ => 0x01
  | .seedent _ => 0x02
  | .seeddraw _ => 0x03
  | .next => 0x04
  | .jump => 0x05
  | .ljump => 0x06
  | .udbl => 0x07
  | .uflt => 0x08
  | .cmpst => 0x09
  | .rotl _ _ => 0x10
  | .rotr _ _ => 0x11
  | .rotli _ _ => 0x12
  | .rotri _ _ => 0x13
  | .sreset => 0xFF

/-- WC, the width code of W (R105); 0 for a number that is no width, which has no encoding. -/
def widthCode : Nat → Nat
  | 16 => 1
  | 32 => 2
  | 64 => 3
  | _ => 0

/-- A field's value put at bit `lo` of a word. -/
def place (v lo : Nat) : Word := BitVec.ofNat 64 v <<< lo

/-- The operand fields of a command (R107): ALGO at bit 8, WC at bit 12, SH at bit 16. -/
def operandBits : Instr → Word
  | .nop => 0
  | .seed a => place a 8
  | .seedent a => place a 8
  | .seeddraw a => place a 8
  | .next => 0
  | .jump => 0
  | .ljump => 0
  | .udbl => 0
  | .uflt => 0
  | .cmpst => 0
  | .rotl w sh => place (widthCode w) 12 ||| place sh 16
  | .rotr w sh => place (widthCode w) 12 ||| place sh 16
  | .rotli w sh => place (widthCode w) 12 ||| place sh 16
  | .rotri w sh => place (widthCode w) 12 ||| place sh 16
  | .sreset => 0

/-- The word of a well-formed command (R101 to R108). -/
def encode (i : Instr) : Word := place (opcodeOf i) 0 ||| operandBits i

/-- The SRESET word: only this exact word is SRESET (41 R160). -/
def sresetWord : Word := 0x00000000000000FF#64

/-- One row of the opcode table in match/mask form (R108). -/
structure TableRow where
  mnemonic : String
  pattern : Word
  mask : Word
  deriving DecidableEq, Repr

/-- R108: "Format N rows have mask 0xFFFF_FFFF_FFFF_FFFF". -/
def maskN : Word := 0xFFFFFFFFFFFFFFFF#64
/-- R108: "Format S rows 0xFFFF_FFFF_FFFF_F8FF". -/
def maskS : Word := 0xFFFFFFFFFFFFF8FF#64
/-- R108: "Format R rows 0xFFFF_FFFF_FFC0_CFFF". -/
def maskR : Word := 0xFFFFFFFFFFC0CFFF#64

/-- The opcode table (opcode_table.json): "The match of every row is its OPC" (R108). -/
def opcodeTable : List TableRow :=
  [ ⟨"NOP", 0x00, maskN⟩, ⟨"SEED", 0x01, maskS⟩, ⟨"SEEDENT", 0x02, maskS⟩, ⟨"SEEDDRAW", 0x03, maskS⟩,
    ⟨"NEXT", 0x04, maskN⟩, ⟨"JUMP", 0x05, maskN⟩, ⟨"LJUMP", 0x06, maskN⟩, ⟨"UDBL", 0x07, maskN⟩ ] ++
  [ ⟨"UFLT", 0x08, maskN⟩, ⟨"CMPST", 0x09, maskN⟩, ⟨"ROTL", 0x10, maskR⟩, ⟨"ROTR", 0x11, maskR⟩,
    ⟨"ROTLI", 0x12, maskR⟩, ⟨"ROTRI", 0x13, maskR⟩, ⟨"SRESET", 0xFF, maskN⟩ ]

/-- A word has a row's bits. -/
def TableRow.hits (r : TableRow) (c : Word) : Bool := c &&& r.mask == r.pattern

/-- The mnemonic of a command, as the opcode table spells it (R108). -/
def Instr.mnemonic : Instr → String
  | .nop => "NOP"
  | .seed _ => "SEED"
  | .seedent _ => "SEEDENT"
  | .seeddraw _ => "SEEDDRAW"
  | .next => "NEXT"
  | .jump => "JUMP"
  | .ljump => "LJUMP"
  | .udbl => "UDBL"
  | .uflt => "UFLT"
  | .cmpst => "CMPST"
  | .rotl _ _ => "ROTL"
  | .rotr _ _ => "ROTR"
  | .rotli _ _ => "ROTLI"
  | .rotri _ _ => "ROTRI"
  | .sreset => "SRESET"

end Sys2Proof
end

