-- ==== Sys2Proof/Config.lean ====
section
/-! DEFINITION. What one build of the block fixes: the implementation parameters of 00_scope.md R7. The machine leaves no result undefined
(93_implementation_defined.md U1 to U19), so there is no free-value constant here. -/

namespace Sys2Proof

/-- The parameters of R7 that a build may choose. WORD and ROT_WIDTHS are fixed there; JUMP_CONST is fixed by 45_jump.md R222 and stands
in Machine/Jump.lean. BASE_ADDR is a multiple of 256 (R7), so it is held as a page number: a base that is no multiple cannot be built. -/
structure Build where
  /-- BASE_ADDR / 256. OPEN in the spec (D3). -/
  basePage : Nat
  /-- HAS_ALGO: bit k-1 set when ALGO code k is built in. -/
  hasAlgo : BitVec 5
  /-- HAS_ENTROPY: the entropy port and SEEDENT are built in. -/
  hasEntropy : Bool
  /-- HAS_UNIT: the interval-mapping converter is built in. -/
  hasUnit : Bool
  deriving DecidableEq, Repr

/-- BASE_ADDR, the system address of register offset 0x00 (R7). -/
def Build.baseAddr (b : Build) : Nat := 256 * b.basePage

/-- The default parameters of R7. DESIGN CHOICE (log 3): base page 0, since the spec gives BASE_ADDR no default. -/
def Build.default : Build :=
  { basePage := 0, hasAlgo := 0b11111, hasEntropy := true, hasUnit := true }

end Sys2Proof
end

