-- ==== Sys2Proof/Machine/State.lean ====
section
/-! DEFINITION. The block's state as plain data (10_state.md R30, R51; 70_reset_and_hazards.md R291), the inputs that reach it, and the
reasons a step can stop. -/

namespace Sys2Proof.Machine

/-- Four 64-bit words: S[0..3], SEED[0..3] or EBUF[0..3]. -/
structure Quad where
  w0 : Word
  w1 : Word
  w2 : Word
  w3 : Word
  deriving DecidableEq, Repr

/-- All four words zero. -/
def Quad.zero : Quad := ⟨0, 0, 0, 0⟩

/-- The five algorithms of 00 R2, in the order of their codes 1 to 5 (30 R104). Code 0, NONE, is the absence of one. -/
inductive Algo where
  | splitmix64
  | xoroshiro128p
  | xoroshiro128pp
  | xoroshiro128pdrbg
  | xoshiro256pp
  deriving DecidableEq, Repr

/-- The fault causes of 60 R251, in the order of their codes 0 to 8. Codes 9 to 15 are never written. -/
inductive Cause where
  /-- 0 NONE: no fault. -/
  | noFault
  /-- 1: the word is not legal (R252). -/
  | illegalOpcode
  /-- 2: the command's optional unit is not built (R253). -/
  | featureAbsent
  /-- 3: the ALGO field is 0, 6, 7 or an algorithm not built (R254). -/
  | illegalAlgo
  /-- 4: the context is unseeded (R255). -/
  | notSeeded
  /-- 5: the current algorithm has no such jump (R256). -/
  | unsupportedOp
  /-- 6: SH = 0 or SH ≥ W (R257). -/
  | rotRange
  /-- 7: the entropy source signalled failure (R258). -/
  | entropyFail
  /-- 8: the new state would be all zero for an XOR/shift-based algorithm (R259). -/
  | zeroSeed
  deriving DecidableEq, Repr

/-- What the entropy port shows on one clock edge with `ent_req` = 1: `ent_ack`, `ent_data[7:0]`, `ent_fail` (10 R53; 20 R91, R93). -/
structure EntSample where
  ack : Bool
  data : Byte
  fail : Bool
  deriving DecidableEq, Repr

/-- What a host access does: a read, or a write of 64-bit data with its eight byte strobes (20 R73). -/
inductive AccessOp where
  | read
  | write (strobes : BitVec 8) (data : Word)
  deriving DecidableEq, Repr

/-- One host access: its system address, its size in bytes and what it does (20 R73 to R76). -/
structure HostAccess where
  addr : Nat
  size : Nat
  op : AccessOp
  deriving DecidableEq, Repr

/-- The block's answer to one access (20 R75, R76, R78; 92 D38): OKAY to a write, OKAY with data to a read, or the error response, which
carries no data. -/
inductive Response where
  | okay
  | data (v : Word)
  | error
  deriving DecidableEq, Repr

/-- An input of the block, in the order inputs reach it (log 1). -/
inductive Input where
  /-- A host access arrives (20 R83). -/
  | host (a : HostAccess)
  /-- A clock turn: the engine, or the access at the head of the held ones, gets to move. -/
  | clock
  /-- `rst_n` goes to 0 (70 R290). -/
  | rstLow
  /-- `rst_n` goes to 1 and the block leaves reset (70 R290; log 7). -/
  | rstHigh
  deriving DecidableEq, Repr

/-- The block, with the outside world's inputs as plain data. -/
structure State where
  /-- The parameters of this build (00 R7). No step changes them. -/
  build : Build
  /-- ALGO, the context's algorithm; none is NONE, unseeded (10 R30, R40). -/
  algo : Option Algo
  /-- S[0..3], the state tuple (10 R30, R45, R48). -/
  ctx : Quad
  /-- SEED[0..3] (10 R44). -/
  seed : Quad
  /-- OPERAND (10 R47). -/
  operand : Word
  /-- OUT (10 R46). -/
  out : Word
  /-- EQ (10 R38). -/
  eq : Bool
  /-- FAULT, and the output `irq` (10 R37, R52). -/
  fault : Bool
  /-- CAUSE (10 R39). -/
  cause : Cause
  /-- FAULTCMD (10 R43). -/
  faultcmd : Word
  /-- BUSY (10 R36). -/
  busy : Bool
  /-- WAIT_ENT, and the output `ent_req` (10 R41, R53). -/
  waitEnt : Bool
  /-- PEND, the accepted command word, present while BUSY = 1 (10 R51). -/
  pend : Word
  /-- EBUF[0..3], the entropy words being assembled (10 R51; 20 R92). -/
  ebuf : Quad
  /-- ECNT, the entropy bytes received, 0 to 32 (10 R51; 20 R91). -/
  ecnt : Nat
  /-- `rst_n`, true while released (70 R290). -/
  rstN : Bool
  /-- The held accesses, oldest first (20 R82). -/
  held : List HostAccess
  /-- The inputs still to come, in order (the model's own field; log 1). -/
  agenda : List Input
  /-- What the entropy port shows on the coming edges with `ent_req` = 1 (the model's own field; log 2). -/
  entropy : List EntSample
  /-- The answers given so far, newest first (the model's own field; log 10). -/
  answers : List (HostAccess × Response)
  deriving DecidableEq, Repr

/-- Why the machine stops. A command never stops it: `raise Fault(k)` (60 R262) is a next state. -/
inductive Fault where
  /-- A host access arrives while `rst_n` = 0. Raised by `step` alone. 70 R292: "Accesses issued while `rst_n` = 0 are outside this
  spec. The platform must not issue them" (93 U15). Safe: the model stops where the hardware does something unstated (log 6). -/
  | accessDuringReset
  deriving DecidableEq, Repr

/-- Why an instruction has no meaning here. -/
inductive Refusal where
  /-- Not modelled yet. Raised by `exec`'s refused arms, of which there are none. Safe: nothing is claimed of a refused instruction. -/
  | notModelled (mnemonic : String)
  deriving DecidableEq, Repr

/-- The three outcomes of a step on this machine. -/
abbrev Outcome := Host.Outcome State Fault Refusal

/-- The machine right after reset (70 R291), with the default build (log 3), `rst_n` released (log 7) and nothing yet from the outside
world (log 1, 2, 10). -/
def State.reset : State where
  build := Build.default
  algo := none
  ctx := Quad.zero
  seed := Quad.zero
  operand := 0
  out := 0
  eq := false
  fault := false
  cause := .noFault
  faultcmd := 0
  busy := false
  waitEnt := false
  pend := 0
  ebuf := Quad.zero
  ecnt := 0
  rstN := true
  held := []
  agenda := []
  entropy := []
  answers := []

end Sys2Proof.Machine
end

