-- ==== Sys2Proof/Machine/Operands.lean ====
section
/-! DEFINITION. Words of a tuple, algorithm codes, rotation and byte order: the operand forms of 00 R9, 10 R48, 20 R72 and R92, 30 R104 to
R107, 40 R130 and R131. -/

namespace Sys2Proof.Machine

/-- Word k of a tuple. -/
def Quad.get (q : Quad) : Nat → Word
  | 0 => q.w0
  | 1 => q.w1
  | 2 => q.w2
  | 3 => q.w3
  | _ => 0

/-- Word k of a tuple replaced. -/
def Quad.set (q : Quad) (k : Nat) (v : Word) : Quad :=
  match k with
  | 0 => { q with w0 := v }
  | 1 => { q with w1 := v }
  | 2 => { q with w2 := v }
  | 3 => { q with w3 := v }
  | _ => q

/-- Wordwise exclusive OR of two tuples (45 R221). -/
def Quad.xor (p q : Quad) : Quad := ⟨p.w0 ^^^ q.w0, p.w1 ^^^ q.w1, p.w2 ^^^ q.w2, p.w3 ^^^ q.w3⟩

/-- N(ALGO), the tuple width (10 R48). -/
def Algo.width : Algo → Nat
  | .splitmix64 => 1
  | .xoroshiro128p => 2
  | .xoroshiro128pp => 2
  | .xoroshiro128pdrbg => 2
  | .xoshiro256pp => 4

/-- The XOR/shift-based generators: every one except SplitMix64 (00 R12). -/
def Algo.xorShift : Algo → Bool
  | .splitmix64 => false
  | .xoroshiro128p => true
  | .xoroshiro128pp => true
  | .xoroshiro128pdrbg => true
  | .xoshiro256pp => true

/-- `(k < N(A)) ? w[k] : u[k]` for every k: the live words of one tuple, the others of another. -/
def Algo.merge (A : Algo) (w u : Quad) : Quad :=
  match A.width with
  | 1 => { u with w0 := w.w0 }
  | 2 => { u with w0 := w.w0, w1 := w.w1 }
  | _ => w

/-- `w[k] == 0` for every k < N(A). -/
def Algo.liveZero (A : Algo) (w : Quad) : Bool := (List.range A.width).all fun k => w.get k == 0

/-- `p[k] == q[k]` for every k < N(A). -/
def Algo.liveEq (A : Algo) (p q : Quad) : Bool := (List.range A.width).all fun k => p.get k == q.get k

/-- The ALGO code of an algorithm (30 R104). -/
def Algo.code : Algo → Nat
  | .splitmix64 => 1
  | .xoroshiro128p => 2
  | .xoroshiro128pp => 3
  | .xoroshiro128pdrbg => 4
  | .xoshiro256pp => 5

/-- The algorithm of an ALGO code (30 R104); none for NONE and the reserved codes. -/
def Algo.ofCode : Nat → Option Algo
  | 1 => some .splitmix64
  | 2 => some .xoroshiro128p
  | 3 => some .xoroshiro128pp
  | 4 => some .xoroshiro128pdrbg
  | 5 => some .xoshiro256pp
  | _ => none

/-- `HAS_ALGO[A-1]` (00 R7). -/
def hasGen (b : Build) (A : Algo) : Bool := b.hasAlgo.getLsbD (A.code - 1)

/-- The target of a seeding command: the algorithm of its ALGO field, if there is one and the build has it (60 R254). -/
def target (b : Build) (code : Nat) : Option Algo :=
  match Algo.ofCode code with
  | some A => if hasGen b A then some A else none
  | none => none

/-- `rotl_W(x, s) = (x << s) | (x >> (W - s))` (00 R9), used for 0 < s < W only. -/
def rotl (W : Nat) (x : BitVec W) (s : Nat) : BitVec W := x <<< s ||| x >>> (W - s)

/-- `rotr_W(x, s) = (x >> s) | (x << (W - s))` (00 R9), used for 0 < s < W only. -/
def rotr (W : Nat) (x : BitVec W) (s : Nat) : BitVec W := x >>> s ||| x <<< (W - s)

/-- The shift-range check: `s == 0 or s >= W` (40 R131). -/
def shiftOutOfRange (W s : Nat) : Bool := s == 0 || decide (W ≤ s)

/-- A left rotation of OPERAND[W-1:0], zero-extended to 64 bits (40 R130, R132). -/
def rotatedLeft (W s : Nat) (operand : Word) : Word := (rotl W (operand.setWidth W) s).setWidth 64

/-- A right rotation of OPERAND[W-1:0], zero-extended to 64 bits (40 R130, R133). -/
def rotatedRight (W s : Nat) (operand : Word) : Word := (rotr W (operand.setWidth W) s).setWidth 64

/-- Byte lane j of a register: bits [8j+7:8j] at register offset + j (20 R72). -/
def byteLane (v : Word) (j : Nat) : Byte := v.extractLsb' (8 * j) 8

/-- A byte at lane j of a word, zeros elsewhere: `zext_64(b) << 8j` (20 R92). -/
def laneWord (b : Byte) (j : Nat) : Word := b.setWidth 64 <<< (8 * j)

/-- Entropy byte number i put into bits [8·(i mod 8)+7 : 8·(i mod 8)] of EBUF[i / 8], which hold 0 before it (20 R92). -/
def putByte (buf : Quad) (i : Nat) (b : Byte) : Quad :=
  buf.set (i / 8) (buf.get (i / 8) ||| laneWord b (i % 8))

end Sys2Proof.Machine
end

