-- ==== Sys2Proof/Machine/Flags.lean ====
section
/-! DEFINITION. STATUS and ID, the words that show the block's flags (10_state.md R33, R35 to R42), and the output signals (R52, R53). -/

namespace Sys2Proof.Machine

/-- The code of a fault cause (60 R251). -/
def causeCode : Cause → Nat
  | .noFault => 0
  | .illegalOpcode => 1
  | .featureAbsent => 2
  | .illegalAlgo => 3
  | .notSeeded => 4
  | .unsupportedOp => 5
  | .rotRange => 6
  | .entropyFail => 7
  | .zeroSeed => 8

/-- The code STATUS.ALGO shows (10 R40). -/
def algoCode : Option Algo → Nat
  | none => 0
  | some A => A.code

/-- A flag as a number. -/
def flag (b : Bool) : Nat := if b then 1 else 0

/-- A field's value at bit `lo` of a register. -/
def field (v lo : Nat) : Word := BitVec.ofNat 64 v <<< lo

/-- STATUS (10 R35): BUSY at 0, FAULT at 1, EQ at 2, CAUSE at 7:4, ALGO at 10:8, WAIT_ENT at 11; the reserved bits read 0 (R42). -/
def statusWord (s : State) : Word :=
  field (flag s.busy) 0 ||| field (flag s.fault) 1 ||| field (flag s.eq) 2 ||| field (causeCode s.cause) 4
    ||| field (algoCode s.algo) 8 ||| field (flag s.waitEnt) 11

/-- ID (10 R33): MAGIC, VER_MAJOR 1, VER_MINOR 0 and the build's features; the reserved bits read 0. -/
def idWord (b : Build) : Word :=
  field 0x44524247 0 ||| field 0x01 32 ||| field 0x00 40 ||| field b.hasAlgo.toNat 48
    ||| field (flag b.hasEntropy) 53 ||| field (flag b.hasUnit) 54

/-- Output `irq`, equal to FAULT at all times (10 R52; 60 R267). -/
def irq (s : State) : Bool := s.fault

/-- Output `ent_req`, 1 exactly while WAIT_ENT is 1; none where the port is absent (10 R53). -/
def entReq (s : State) : Option Bool := if s.build.hasEntropy then some s.waitEnt else none

/-- The value of EQ that CMPST writes: S[0..N-1] and SEED[0..N-1] are equal (41 R158). -/
def eqFlag (A : Algo) (s : State) : Bool := A.liveEq s.ctx s.seed

end Sys2Proof.Machine
end

