-- ==== Sys2Proof/Machine/Ops.lean ====
section
/-! DEFINITION. The operations every command shares: completing, taking a fault (60_exceptions.md R262) and leaving it by reset
(70_reset_and_hazards.md R291), and the host-visible registers (10_state.md R32; 20_memory.md R75, R76). -/

namespace Sys2Proof.Machine

/-- The command in execution is complete: BUSY and WAIT_ENT are 0 and the engine holds no command (10 R36, R41, R51). -/
def complete (s : State) : State :=
  { s with busy := false, waitEnt := false, pend := 0, ebuf := Quad.zero, ecnt := 0 }

/-- `Fault(k)` (60 R262): FAULT, CAUSE and FAULTCMD record it, BUSY and WAIT_ENT become 0, and nothing else changes (R263). FAULTCMD
gets the accepted word, PEND. -/
def takeFault (k : Cause) (s : State) : State :=
  complete { s with fault := true, cause := k, faultcmd := s.pend }

/-- A command ends with its effects applied. -/
def done (s : State) : Outcome := .next (complete s)

/-- A command ends in `raise Fault(k)`. -/
def raise (k : Cause) (s : State) : Outcome := .next (takeFault k s)

/-- The reset values of 70 R291, for every register of the block. ID is a build constant, and the outside world's inputs, the answers
already given, the held accesses and the level of `rst_n` are no register's. -/
def softReset (s : State) : State :=
  { s with
    algo := none, ctx := Quad.zero, seed := Quad.zero, operand := 0, out := 0, eq := false,
    fault := false, cause := .noFault, faultcmd := 0, busy := false, waitEnt := false,
    pend := 0, ebuf := Quad.zero, ecnt := 0 }

/-- `rst_n` = 0 (70 R292): the state becomes that of R291, a command in execution is aborted without effect, and the held accesses are
discarded. -/
def assertReset (s : State) : State := { softReset s with rstN := false, held := [] }

/-- The host-visible registers (10 R32). -/
inductive Reg where
  | id
  | cmd
  | status
  | faultcmd
  /-- SEED0..SEED3. -/
  | seed (k : Fin 4)
  /-- STATE0..STATE3. -/
  | state (k : Fin 4)
  | out
  | operand
  deriving DecidableEq, Repr

/-- The register at an offset (10 R32); none at a reserved or misaligned one. -/
def regAt : Nat → Option Reg
  | 0x00 => some .id
  | 0x08 => some .cmd
  | 0x10 => some .status
  | 0x18 => some .faultcmd
  | 0x20 => some (.seed 0)
  | 0x28 => some (.seed 1)
  | 0x30 => some (.seed 2)
  | 0x38 => some (.seed 3)
  | 0x40 => some (.state 0)
  | 0x48 => some (.state 1)
  | 0x50 => some (.state 2)
  | 0x58 => some (.state 3)
  | 0x60 => some .out
  | 0x68 => some .operand
  | _ => none

/-- The value a read returns (20 R75). CMD reads 0 (R77). -/
def readReg (s : State) : Reg → Word
  | .id => idWord s.build
  | .cmd => 0
  | .status => statusWord s
  | .faultcmd => s.faultcmd
  | .seed k => s.seed.get k
  | .state k => s.ctx.get k
  | .out => s.out
  | .operand => s.operand

/-- Whether a write to the register is admitted (20 R76, R79). -/
def writable : Reg → Bool
  | .id => false
  | .cmd => true
  | .status => false
  | .faultcmd => false
  | .seed _ => true
  | .state _ => false
  | .out => false
  | .operand => true

/-- The byte lanes of a register as the window shows them: the byte at window offset `off` (20 R72). None where no register is. -/
def windowByte (s : State) (off : Nat) : Option Byte :=
  match regAt (off / 8 * 8) with
  | some r => some (byteLane (readReg s r) (off % 8))
  | none => none

/-- The offset of a system address in the register window of 256 bytes at BASE_ADDR (20 R70); none outside it. -/
def windowOffset (b : Build) (addr : Nat) : Option Nat :=
  if b.baseAddr ≤ addr ∧ addr < b.baseAddr + 256 then some (addr - b.baseAddr) else none

end Sys2Proof.Machine
end

