-- ==== Sys2Proof/Machine/Bus.lean ====
section
/-! DEFINITION. Host accesses: what each one is, when it is held and what performing it does (20_memory.md R73 to R84; 60_exceptions.md
R264). -/

namespace Sys2Proof.Machine

/-- What an access asks for, once its size, alignment, offset, strobes and access right are checked. -/
inductive Request where
  /-- An error whatever the state (R73, R74, R79 and the reserved offsets). -/
  | bad
  | read (r : Reg)
  | write (r : Reg) (v : Word)
  deriving DecidableEq, Repr

/-- The checks that need no state (R73, R74, R78, R79). -/
def requestAt (off : Nat) (a : HostAccess) : Request :=
  if a.size ≠ 8 ∨ off % 8 ≠ 0 then .bad
  else
    match regAt off with
    | none => .bad
    | some r =>
      match a.op with
      | .read => .read r
      | .write strobes v => if strobes = 0xFF#8 ∧ writable r then .write r v else .bad

/-- A read that completes at once even while BUSY: ID and STATUS (R82). -/
def neverHeld : Request → Bool
  | .bad => true
  | .read .id => true
  | .read .status => true
  | .read .cmd => false
  | .read .faultcmd => false
  | .read (.seed _) => false
  | .read (.state _) => false
  | .read .out => false
  | .read .operand => false
  | .write _ _ => false

/-- The block's answer to an access leaves it. -/
def answer (a : HostAccess) (r : Response) (s : State) : State := { s with answers := (a, r) :: s.answers }

/-- An access makes no progress for now (R82). -/
def hold (a : HostAccess) (s : State) : State := { s with held := s.held ++ [a] }

/-- A command word is accepted: `PEND <- v; BUSY <- 1` (R76). -/
def accept (v : Word) (s : State) : State := { s with pend := v, busy := true }

/-- A write to a register that stores it (R76). A write to CMD is no store. -/
def writeReg (s : State) (r : Reg) (v : Word) : State :=
  match r with
  | .seed k => { s with seed := s.seed.set k v }
  | .operand => { s with operand := v }
  | .id => s
  | .cmd => s
  | .status => s
  | .faultcmd => s
  | .state _ => s
  | .out => s

/-- A CMD write while FAULT = 1 is refused, unless it is the SRESET word (60 R264). -/
def refuses (s : State) (v : Word) : Bool := s.fault && v != sresetWord

/-- Performing an admitted write (R76). -/
def performWrite (a : HostAccess) (r : Reg) (v : Word) (s : State) : State :=
  match r with
  | .cmd => if refuses s v then answer a .error s else answer a .okay (accept v s)
  | r => answer a .okay (writeReg s r v)

/-- Performing an access while it is not held (R75, R76, R78). -/
def perform (a : HostAccess) (q : Request) (s : State) : State :=
  match q with
  | .bad => answer a .error s
  | .read r => answer a (.data (readReg s r)) s
  | .write r v => performWrite a r v s

/-- An access arrives: held while BUSY unless it need not be (R82), else performed. An access outside the window is not the block's, and
the block does nothing (log 4). -/
def arrive (a : HostAccess) (s : State) : State :=
  match windowOffset s.build a.addr with
  | none => s
  | some off =>
    if s.busy && !neverHeld (requestAt off a) then hold a s
    else perform a (requestAt off a) s

end Sys2Proof.Machine
end

