-- ==== Sys2Proof/Machine/Control.lean ====
section
/-! DEFINITION. The control commands NOP and SRESET (41_generator_interface.md R159, R160). -/

namespace Sys2Proof.Machine

/-- NOP (R159): no effect but its completion. -/
def execNop (s : State) : Outcome := done s

/-- SRESET (R160): the reset of 70 R291, applied to every register. The accesses held behind it stay held (70 R292). -/
def execSreset (s : State) : Outcome := .next (softReset s)

end Sys2Proof.Machine
end

