-- ==== Sys2Proof/Machine/SplitMix64.lean ====
section
/-! DEFINITION. The SplitMix64 step (42_splitmix64.md R180 to R182). -/

namespace Sys2Proof.Machine

/-- `(v ^ (v >> k)) * m`, one mixing round (R181). -/
def mixRound (k : Nat) (m v : Word) : Word := (v ^^^ v >>> k) * m

/-- `Step_SPLITMIX64` (R181): the output is computed from the state after the addition. -/
def stepSplitMix64 (s0 : Word) : Word × Word :=
  let n := s0 + 0x9E3779B97F4A7C15#64
  let v := mixRound 30 0xBF58476D1CE4E5B9#64 n
  let v := mixRound 27 0x94D049BB133111EB#64 v
  (v ^^^ v >>> 31, n)

end Sys2Proof.Machine
end

