-- ==== Sys2Proof/Machine/Xoroshiro128.lean ====
section
/-! DEFINITION. The steps of the Xoroshiro128 family (43_xoroshiro128.md R190 to R194; 90_conflicts.md C1, C2). -/

namespace Sys2Proof.Machine

/-- `XoroCore(a, b, c, s0, s1)` (R190): both new words are computed from the pre-update pair. -/
def xoroCore (a b c : Nat) (s0 s1 : Word) : Word × Word :=
  let x := s0 ^^^ s1
  (rotl 64 s0 a ^^^ x ^^^ x <<< b, rotl 64 x c)

/-- `Step_XOROSHIRO128P` (R191): constants 24, 16, 37. -/
def stepXoroshiro128P (s0 s1 : Word) : Word × Word × Word := (s0 + s1, xoroCore 24 16 37 s0 s1)

/-- `Step_XOROSHIRO128PP` (R192): constants 49, 21, 28. -/
def stepXoroshiro128PP (s0 s1 : Word) : Word × Word × Word :=
  (rotl 64 (s0 + s1) 17 + s0, xoroCore 49 21 28 s0 s1)

/-- `Step_XOROSHIRO128PDRBG` (R193): constants 55, 14, 36. -/
def stepXoroshiro128PDrbg (s0 s1 : Word) : Word × Word × Word := (s0 + s1, xoroCore 55 14 36 s0 s1)

end Sys2Proof.Machine
end

