-- ==== Sys2Proof/Machine/Xoshiro256.lean ====
section
/-! DEFINITION. The Xoshiro256++ step (44_xoshiro256.md R210, R211; 90_conflicts.md C3). -/

namespace Sys2Proof.Machine

/-- `Step_XOSHIRO256PP` (R211): the statements run in order, each reading what those before it left. -/
def stepXoshiro256PP (q : Quad) : Word × Quad :=
  let out := rotl 64 (q.w0 + q.w3) 23 + q.w0
  let t := q.w1 <<< 17
  let s2 := q.w2 ^^^ q.w0
  let s3 := q.w3 ^^^ q.w1
  let s1 := q.w1 ^^^ s2
  let s0 := q.w0 ^^^ s3
  let s2 := s2 ^^^ t
  let s3 := rotl 64 s3 45
  (out, ⟨s0, s1, s2, s3⟩)

end Sys2Proof.Machine
end

