-- ==== Sys2Proof/Machine/Generator.lean ====
section
/-! DEFINITION. The generator interface: step dispatch, NEXT and CMPST (41_generator_interface.md R150, R151, R157, R158). -/

namespace Sys2Proof.Machine

/-- A two-word step's output, and its two words put in the tuple. -/
def withPair (q : Quad) (p : Word × Word × Word) : Word × Quad := (p.1, { q with w0 := p.2.1, w1 := p.2.2 })

/-- `Step(S)` (R151): the output word and the tuple after it. It touches only S[0..N-1] (10 R48). -/
def genStep (A : Algo) (q : Quad) : Word × Quad :=
  match A with
  | .splitmix64 => ((stepSplitMix64 q.w0).1, { q with w0 := (stepSplitMix64 q.w0).2 })
  | .xoroshiro128p => withPair q (stepXoroshiro128P q.w0 q.w1)
  | .xoroshiro128pp => withPair q (stepXoroshiro128PP q.w0 q.w1)
  | .xoroshiro128pdrbg => withPair q (stepXoroshiro128PDrbg q.w0 q.w1)
  | .xoshiro256pp => stepXoshiro256PP q

/-- The tuple after one step, its output discarded. -/
def advance (A : Algo) (q : Quad) : Quad := (genStep A q).2

/-- One draw whose output word goes to OUT through `f` (R157, 46 R242, R243). -/
def drawTo (f : Word → Word) (A : Algo) (s : State) : State :=
  { s with out := f (genStep A s.ctx).1, ctx := advance A s.ctx }

/-- NEXT (R157). -/
def execNext (s : State) : Outcome :=
  match s.algo with
  | none => raise .notSeeded s
  | some A => done (drawTo (fun o => o) A s)

/-- CMPST (R158). -/
def execCmpst (s : State) : Outcome :=
  match s.algo with
  | none => raise .notSeeded s
  | some A => done { s with eq := eqFlag A s }

end Sys2Proof.Machine
end

