-- ==== Sys2Proof/Machine/Jump.lean ====
section
/-! DEFINITION. JUMP and LJUMP (45_jump.md R220 to R228). -/

namespace Sys2Proof.Machine

/-- JUMP_CONST[algo][JUMP], K[0] first (R223); none where the algorithm has no jump (R220). -/
def jumpConst : Algo → Option (List Word)
  | .splitmix64 => none
  | .xoroshiro128p => some [0xDF900294D8F554A5#64, 0x170865DF4B3201FC#64]
  | .xoroshiro128pp => some [0x2BD7A6A6E99C2DDC#64, 0x0992CCAF6A6FCA05#64]
  | .xoroshiro128pdrbg => some [0xBEAC0467EBA5FACB#64, 0xD86B048B86AA9922#64]
  | .xoshiro256pp =>
    some [0x180EC6D33CFD0ABA#64, 0xD5A61266F0C9392C#64, 0xA9582618E03FC9AA#64, 0x39ABDC4529B1661C#64]

/-- JUMP_CONST[algo][LJUMP], K[0] first (R223); none where the algorithm has no long jump (R220). -/
def ljumpConst : Algo → Option (List Word)
  | .splitmix64 => none
  | .xoroshiro128p => some [0xD2A98B26625EEE7B#64, 0xDDDF9B1090AA7AC1#64]
  | .xoroshiro128pp => some [0x360FD5F2CF8D5D99#64, 0x9C6E6877736C46E3#64]
  | .xoroshiro128pdrbg => none
  | .xoshiro256pp =>
    some [0x76E15D3EFEFDCBBF#64, 0xC5004E441C522FB3#64, 0x77710069854EE241#64, 0x39109BB02ACBE635#64]

/-- One bit of the scan: accumulate the current tuple if the bit is set, then step once regardless (R221). -/
def scanBit (A : Algo) (bit : Bool) (p : Quad × Quad) : Quad × Quad :=
  (if bit then p.1.xor p.2 else p.1, advance A p.2)

/-- The scan of bits b, b+1, …, n of them, of one constant (R221). The pair is (acc, t). -/
def scanBits (A : Algo) (k : Word) : Nat → Nat → Quad × Quad → Quad × Quad
  | 0, _, p => p
  | n + 1, b, p => scanBits A k n (b + 1) (scanBit A (k.getLsbD b) p)

/-- The scan of all constants in order, 64 bits each, least significant bit first (R221). -/
def scanWords (A : Algo) : List Word → Quad × Quad → Quad × Quad
  | [], p => p
  | k :: ks, p => scanWords A ks (scanBits A k 64 0 p)

/-- `JumpWith(K, S[0..N-1])` (R221). -/
def jumpWith (A : Algo) (K : List Word) (q : Quad) : Quad := A.merge (scanWords A K (Quad.zero, q)).1 q

/-- A jump by a constant list, or UNSUPPORTED_OP where there is none (R224, R225). -/
def jumpBy (K : Algo → Option (List Word)) (s : State) : Outcome :=
  match s.algo with
  | none => raise .notSeeded s
  | some A =>
    match K A with
    | none => raise .unsupportedOp s
    | some ks => done { s with ctx := jumpWith A ks s.ctx }

/-- JUMP (R224). -/
def execJump (s : State) : Outcome := jumpBy jumpConst s

/-- LJUMP (R225). -/
def execLjump (s : State) : Outcome := jumpBy ljumpConst s

end Sys2Proof.Machine
end

