-- ==== Sys2Proof/Machine/Rotation.lean ====
section
/-! DEFINITION. The rotation commands (40_rotation.md R130 to R135). None of them reads or needs the context. -/

namespace Sys2Proof.Machine

/-- ROTL (R132): OPERAND rotated left, to OUT. -/
def execRotl (w sh : Nat) (s : State) : Outcome :=
  if shiftOutOfRange w sh then raise .rotRange s else done { s with out := rotatedLeft w sh s.operand }

/-- ROTR (R133): OPERAND rotated right, to OUT. -/
def execRotr (w sh : Nat) (s : State) : Outcome :=
  if shiftOutOfRange w sh then raise .rotRange s else done { s with out := rotatedRight w sh s.operand }

/-- ROTLI (R134): OPERAND rotated left in place. -/
def execRotli (w sh : Nat) (s : State) : Outcome :=
  if shiftOutOfRange w sh then raise .rotRange s else done { s with operand := rotatedLeft w sh s.operand }

/-- ROTRI (R135): OPERAND rotated right in place. -/
def execRotri (w sh : Nat) (s : State) : Outcome :=
  if shiftOutOfRange w sh then raise .rotRange s else done { s with operand := rotatedRight w sh s.operand }

end Sys2Proof.Machine
end

