-- ==== Sys2Proof/Machine/Seeding.lean ====
section
/-! DEFINITION. The three seeding commands (41_generator_interface.md R152 to R156) and the entropy port (20_memory.md R91 to R93). -/

namespace Sys2Proof.Machine

/-- `ZeroSeedCheck(A, w)` fails (R152). -/
def zeroSeeded (A : Algo) (w : Quad) : Bool := A.xorShift && A.liveZero w

/-- `Commit(A, w)` (R153): the check, then the whole context is replaced, with zeros above N(A). -/
def commit (A : Algo) (w : Quad) (s : State) : Outcome :=
  if zeroSeeded A w then raise .zeroSeed s
  else done { s with algo := some A, ctx := A.merge w Quad.zero }

/-- SEED (R154). -/
def execSeed (code : Nat) (s : State) : Outcome :=
  match target s.build code with
  | none => raise .illegalAlgo s
  | some A => commit A s.seed s

/-- How far the entropy port got the engine in one turn. -/
inductive Gathered where
  /-- All bytes are there: the words, and what the port shows afterwards. -/
  | full (buf : Quad) (rest : List EntSample)
  /-- `ent_fail` was sampled (R93). -/
  | failed (rest : List EntSample)
  /-- The port has not answered: the engine waits with what it has (R91). -/
  | waiting (cnt : Nat) (buf : Quad) (rest : List EntSample)
  deriving DecidableEq, Repr

/-- The entropy handshake (20 R91 to R93). Edge by edge: failure wins over a byte, a byte is put in its place, and an edge with neither ends
the turn with the engine still waiting. -/
def gather (need : Nat) : List EntSample → Nat → Quad → Gathered
  | [], cnt, buf => if need ≤ cnt then .full buf [] else .waiting cnt buf []
  | e :: rest, cnt, buf =>
    if need ≤ cnt then .full buf (e :: rest)
    else if e.fail then .failed rest
    else if e.ack then gather need rest (cnt + 1) (putByte buf cnt e.data)
    else .waiting cnt buf rest

/-- WAIT_ENT becomes 1 with no byte received, unless the engine is already waiting (R155). -/
def beginWait (s : State) : State :=
  if s.waitEnt then s else { s with waitEnt := true, ecnt := 0, ebuf := Quad.zero }

/-- The wait for 8·N(A) bytes, then the commit (R155). While the port does not answer, the command is not complete: BUSY and WAIT_ENT stay
1 and nothing else of the block has changed (20 R84). -/
def seedFromEntropy (A : Algo) (s : State) : Outcome :=
  match gather (8 * A.width) s.entropy s.ecnt s.ebuf with
  | .full buf rest => commit A buf { s with entropy := rest }
  | .failed rest => raise .entropyFail { s with entropy := rest }
  | .waiting cnt buf rest => .next { s with ecnt := cnt, ebuf := buf, entropy := rest }

/-- SEEDENT (R155). -/
def execSeedent (code : Nat) (s : State) : Outcome :=
  if s.build.hasEntropy then
    match target s.build code with
    | none => raise .illegalAlgo s
    | some A => seedFromEntropy A (beginWait s)
  else raise .featureAbsent s

/-- Words k, k+1, … of a new seed, one draw of generator `B` each, from tuple `t` (R156). -/
def drawWords (B : Algo) : Nat → Nat → Quad → Quad → Quad
  | 0, _, w, _ => w
  | n + 1, k, w, t => drawWords B n (k + 1) (w.set k (genStep B t).1) (advance B t)

/-- SEEDDRAW (R156): the current generator steps on a shadow copy, which is discarded. -/
def execSeeddraw (code : Nat) (s : State) : Outcome :=
  match target s.build code with
  | none => raise .illegalAlgo s
  | some A =>
    match s.algo with
    | none => raise .notSeeded s
    | some B => commit A (drawWords B A.width 0 Quad.zero s.ctx) s

end Sys2Proof.Machine
end

