-- ==== Sys2Proof/Machine/Unit.lean ====
section
/-! DEFINITION. UDBL and UFLT, the unit-interval conversions (46_unit_convert.md R240 to R244). -/

namespace Sys2Proof.Machine

/-- `UnitDoubleBits(w)` (R240). -/
def unitDoubleBits (w : Word) : Word :=
  let v := (w >>> 11).toNat
  if v = 0 then 0
  else
    let e := v.log2
    BitVec.ofNat 64 (970 + e) <<< 52 ||| BitVec.ofNat 64 ((v <<< (52 - e)) % 2 ^ 52)

/-- `UnitFloatBits(w)` (R241), 32 bits. -/
def unitFloatBits (w : Word) : BitVec 32 :=
  let v := (w >>> 40).toNat
  if v = 0 then 0
  else
    let e := v.log2
    BitVec.ofNat 32 (103 + e) <<< 23 ||| BitVec.ofNat 32 ((v <<< (23 - e)) % 2 ^ 23)

/-- UDBL (R242). -/
def execUdbl (s : State) : Outcome :=
  if s.build.hasUnit then
    match s.algo with
    | none => raise .notSeeded s
    | some A => done (drawTo unitDoubleBits A s)
  else raise .featureAbsent s

/-- UFLT (R243): OUT[63:32] = 0. -/
def execUflt (s : State) : Outcome :=
  if s.build.hasUnit then
    match s.algo with
    | none => raise .notSeeded s
    | some A => done (drawTo (fun o => (unitFloatBits o).setWidth 64) A s)
  else raise .featureAbsent s

end Sys2Proof.Machine
end

