-- ==== Sys2Proof/Machine/Dispatch.lean ====
section
/-! DEFINITION. The body of every command: one arm per row of the opcode table (30_encoding.md R108; 60_exceptions.md R260). -/

namespace Sys2Proof.Machine

def exec (i : Instr) (s : State) : Host.Outcome State Fault Refusal :=
  match i with
  | .nop => Sys2Proof.Machine.execNop s
  | .seed a => Sys2Proof.Machine.execSeed a s
  | .seedent a => Sys2Proof.Machine.execSeedent a s
  | .seeddraw a => Sys2Proof.Machine.execSeeddraw a s
  | .next => Sys2Proof.Machine.execNext s
  | .jump => Sys2Proof.Machine.execJump s
  | .ljump => Sys2Proof.Machine.execLjump s
  | .udbl => Sys2Proof.Machine.execUdbl s
  | .uflt => Sys2Proof.Machine.execUflt s
  | .cmpst => Sys2Proof.Machine.execCmpst s
  | .rotl w n => Sys2Proof.Machine.execRotl w n s
  | .rotr w n => Sys2Proof.Machine.execRotr w n s
  | .rotli w n => Sys2Proof.Machine.execRotli w n s
  | .rotri w n => Sys2Proof.Machine.execRotri w n s
  | .sreset => Sys2Proof.Machine.execSreset s

end Sys2Proof.Machine
end

