-- ==== Sys2Proof/Machine/Engine.lean ====
section
/-! DEFINITION. Which agent moves next and what its move is (00_scope.md R13; 20_memory.md R82 to R84; 70_reset_and_hazards.md R290 to
R292). -/

namespace Sys2Proof.Machine

/-- The engine runs the accepted word: an illegal one faults ILLEGAL_OPCODE (60 R252, R260), a legal one is decoded and executed. -/
def runCommand (s : State) : Outcome :=
  match decode s.pend with
  | .error _ => raise .illegalOpcode s
  | .ok i => exec i s

/-- The oldest held access is performed, once BUSY is 0 (20 R82, R83); an idle block with nothing held does nothing. -/
def releaseHeld (s : State) : State :=
  match s.held with
  | [] => s
  | a :: rest => arrive a { s with held := rest }

/-- A turn of the block: the engine while BUSY, else the held accesses. In reset nothing moves (70 R290). -/
def blockTurn (s : State) : Outcome :=
  if s.rstN then
    if s.busy then runCommand s else .next (releaseHeld s)
  else .next s

/-- A host access stands first on the agenda. While accesses are held and BUSY is 0, the oldest of them goes first (20 R83; log 11). While
`rst_n` = 0 the spec gives no behaviour (70 R292; log 6). -/
def hostTurn (a : HostAccess) (rest : List Input) (s : State) : Outcome :=
  if s.rstN then
    if s.busy || s.held.isEmpty then .next (arrive a { s with agenda := rest }) else .next (releaseHeld s)
  else .fault .accessDuringReset

/-- The next move, by the head of the agenda. With nothing on the agenda the block moves on its own: a command other than a waiting SEEDENT
completes (70 R304), and what is held is performed. -/
def schedule (s : State) : Outcome :=
  match s.agenda with
  | [] => blockTurn s
  | .clock :: rest => blockTurn { s with agenda := rest }
  | .host a :: rest => hostTurn a rest s
  | .rstLow :: rest => .next (assertReset { s with agenda := rest })
  | .rstHigh :: rest => .next { s with agenda := rest, rstN := true }

/-- Command word `c` accepted and about to be executed on the next turn. -/
def placeCommand (c : Word) (s : State) : State :=
  { s with
    pend := c, busy := true, waitEnt := false, ebuf := Quad.zero, ecnt := 0, rstN := true,
    agenda := .clock :: s.agenda }

end Sys2Proof.Machine
end

