-- ==== Sys2Proof/Machine/Step.lean ====
section
/-! DEFINITION. One step of the machine. -/

namespace Sys2Proof.Machine

/-- One step: one move of one agent (log 1). -/
def step (s : State) : Host.Outcome State Fault Refusal := schedule s

/-- The instruction of an opcode-table word placed where the engine takes its next command: accepted in PEND, with BUSY = 1 and a clock turn
next (log 9). Every bit above `nbits` is 0. -/
def State.withFetchWord (s : State) (nbits w : Nat) : State :=
  placeCommand (BitVec.ofNat 64 (w % 2 ^ nbits)) s

end Sys2Proof.Machine
end

