-- ==== Sys2Proof/Safety.lean ====
section
/-! DEFINITION. What a good state and a safe run are, in the terms the claims use. -/

namespace Sys2Proof.Machine

/-- S[k] = 0 for every k ≥ N(ALGO) (10 R48), all of S when the context is unseeded. -/
def tailZero (s : State) : Prop :=
  match s.algo with
  | none => s.ctx = Quad.zero
  | some A => s.ctx = A.merge s.ctx Quad.zero

/-- The context's algorithm is one the build has: only a completed seeding command sets ALGO (10 R40; 60 R254). -/
def algoBuilt (s : State) : Prop := ∀ A, s.algo = some A → hasGen s.build A = true

/-- CAUSE and FAULTCMD are 0 while FAULT is 0, and CAUSE names the fault while it is 1 (10 R39, R43). -/
def faultRecorded (s : State) : Prop :=
  (s.fault = false → s.cause = .noFault ∧ s.faultcmd = 0) ∧ (s.fault = true → s.cause ≠ .noFault)

/-- With no command in execution the engine's hidden state is cleared, and WAIT_ENT is 0 (10 R41, R51). -/
def idleClear (s : State) : Prop :=
  s.busy = false → s.waitEnt = false ∧ s.pend = 0 ∧ s.ebuf = Quad.zero ∧ s.ecnt = 0

/-- The engine waits only in a SEEDENT that the build can execute, with fewer than 8·N bytes received (10 R41; 20 R91). -/
def waitOnlySeedent (s : State) : Prop :=
  s.waitEnt = true →
    ∃ a A, decode s.pend = .ok (.seedent a) ∧ s.build.hasEntropy = true ∧ target s.build a = some A ∧ s.ecnt < 8 * A.width

/-- While FAULT is 1 only the SRESET word can be in execution (60 R264). -/
def faultedRunsOnlyReset (s : State) : Prop := s.busy = true → s.fault = true → s.pend = sresetWord

/-- While `rst_n` is 0 nothing is in execution and nothing is held (70 R292). -/
def resetQuiet (s : State) : Prop := s.rstN = false → s.busy = false ∧ s.held = []

/-- Only accesses that R82 holds are held. -/
def heldOnlyHoldable (s : State) : Prop :=
  ∀ a ∈ s.held, ∃ off, windowOffset s.build a.addr = some off ∧ neverHeld (requestAt off a) = false

/-- The block's consistency. -/
structure Inv (s : State) : Prop where
  tail : tailZero s
  built : algoBuilt s
  fault : faultRecorded s
  idle : idleClear s
  wait : waitOnlySeedent s
  reset : faultedRunsOnlyReset s
  quiet : resetQuiet s
  held : heldOnlyHoldable s

/-- The zero-state invariant (10 R49): under an XOR/shift-based algorithm, S[0..N-1] is not all zero. -/
def NonzeroContext (s : State) : Prop :=
  ∀ A, s.algo = some A → A.xorShift = true → A.liveZero s.ctx = false

/-- The platform's duty (70 R292): no access is issued while `rst_n` is 0. The first argument is the level of `rst_n` now. -/
def platformKeepsReset : Bool → List Input → Bool
  | _, [] => true
  | r, .host _ :: rest => r && platformKeepsReset r rest
  | r, .clock :: rest => platformKeepsReset r rest
  | _, .rstLow :: rest => platformKeepsReset false rest
  | _, .rstHigh :: rest => platformKeepsReset true rest

/-- `k` steps, none of which stops the machine. -/
def RunsFor : Nat → State → Prop
  | 0, _ => True
  | k + 1, s => ∃ t, step s = .next t ∧ RunsFor k t

/-! ### The rules' own forms, said without the machine's functions -/

/-- The bit of a W-bit value that a left rotation by `n` brings to place `i` (00 R9, R12). -/
def leftSource (w n i : Nat) : Nat := (i + (w - n)) % w

/-- The bit of a W-bit value that a right rotation by `n` brings to place `i` (00 R9, R12). -/
def rightSource (w n i : Nat) : Nat := (i + n) % w

/-- `v` is OPERAND[W-1:0] with its bits moved as `source` says, zero-extended to 64 bits (40 R130). -/
def RotatedBits (w : Nat) (source : Nat → Nat) (x v : Word) : Prop :=
  ∀ i, v.getLsbD i = (decide (i < w) && x.getLsbD (source i))

/-- One round of the SplitMix64 output function on numbers modulo 2^64 (42 R181, R182). -/
def splitMixRound (k m v : Nat) : Nat := ((v ^^^ v / 2 ^ k) * m) % 2 ^ 64

/-- The SplitMix64 state after one step, modulo 2^64 (42 R181, R182). -/
def splitMixState (s0 : Nat) : Nat := (s0 + 0x9E3779B97F4A7C15) % 2 ^ 64

/-- The SplitMix64 output for the state after the addition (42 R181, R182). -/
def splitMixOutput (n : Nat) : Nat :=
  let v := splitMixRound 27 0x94D049BB133111EB (splitMixRound 30 0xBF58476D1CE4E5B9 n)
  v ^^^ v / 2 ^ 31

/-- The shared core of the Xoroshiro128 family on a tuple (43 R190), S[2] and S[3] left alone. -/
def xoroNext (a b c : Nat) (q : Quad) : Quad :=
  { q with
    w0 := q.w0.rotateLeft a ^^^ (q.w0 ^^^ q.w1) ^^^ (q.w0 ^^^ q.w1) <<< b
    w1 := (q.w0 ^^^ q.w1).rotateLeft c }

/-- The inverse of the shared core (43 R197). -/
def xoroInverse (a b c : Nat) (n : Word × Word) : Word × Word :=
  let x := rotr 64 n.2 c
  let s0 := rotr 64 (n.1 ^^^ x ^^^ x <<< b) a
  (s0, x ^^^ s0)

/-- The closed form of the Xoshiro256++ update: every right-hand side uses the pre-step values (44 R212). -/
def xoshiroNext (q : Quad) : Quad where
  w0 := q.w0 ^^^ q.w3 ^^^ q.w1
  w1 := q.w1 ^^^ q.w2 ^^^ q.w0
  w2 := q.w2 ^^^ q.w0 ^^^ q.w1 <<< 17
  w3 := (q.w3 ^^^ q.w1).rotateLeft 45

/-- The inverse of the Xoshiro256++ update (44 R214). -/
def xoshiroInverse (n : Quad) : Quad :=
  let u := rotr 64 n.w3 45
  let s0 := n.w0 ^^^ u
  let b := n.w1 ^^^ s0
  let c := n.w2 ^^^ s0
  let v := b ^^^ c
  let s1 := v ^^^ v <<< 17 ^^^ v <<< 34 ^^^ v <<< 51
  ⟨s0, s1, b ^^^ s1, u ^^^ s1⟩

/-- The words of a jump constant list as one row of bits: bit 64·i + b is bit b of K[i] (45 R221, R222). -/
def constBit (K : List Word) (j : Nat) : Bool := (K.getD (j / 64) 0).getLsbD (j % 64)

/-- The tuples at which the bits of `K` are set, exclusive-ORed: tuple j is the j-th step's (45 R221). -/
def selectedSum (A : Algo) (K : List Word) (q : Quad) : Quad :=
  (List.range (64 * K.length)).foldl
    (fun acc j => if constBit K j then acc.xor ((advance A)^[j] q) else acc) Quad.zero

/-- A binary64 value's biased exponent (46 R244). -/
def exponent64 (b : Word) : Nat := (b.extractLsb' 52 11).toNat
/-- A binary64 value's fraction (46 R244). -/
def fraction64 (b : Word) : Nat := (b.extractLsb' 0 52).toNat
/-- A binary32 value's biased exponent (46 R244). -/
def exponent32 (b : BitVec 32) : Nat := (b.extractLsb' 23 8).toNat
/-- A binary32 value's fraction (46 R244). -/
def fraction32 (b : BitVec 32) : Nat := (b.extractLsb' 0 23).toNat

/-- `q` holds `w[k]` for k < N(A) and 0 above (41 R153). -/
def Committed (A : Algo) (w : Nat → Word) (q : Quad) : Prop :=
  ∀ k, k < 4 → q.get k = if k < A.width then w k else 0

/-- The new tuple may be committed: the algorithm is SplitMix64, or some live word is not zero (41 R152). -/
def SeedAccepted (A : Algo) (w : Nat → Word) : Prop := A = .splitmix64 ∨ ∃ k, k < A.width ∧ w k ≠ 0

/-- The new tuple is all zero for an XOR/shift-based algorithm (41 R152). -/
def SeedRejected (A : Algo) (w : Nat → Word) : Prop := A ≠ .splitmix64 ∧ ∀ k, k < A.width → w k = 0

/-- Entropy bytes acknowledged on consecutive edges (20 R91). -/
def byteEdges (bytes : List Byte) : List EntSample := bytes.map fun b => ⟨true, b, false⟩

/-- An edge on which the entropy port does not answer. -/
def EntSample.silent (e : EntSample) : Prop := e.ack = false ∧ e.fail = false

/-- `sum over j in 0..7 of zext_64(byte[8k + j]) << 8j` (20 R92), as a number. -/
def littleEndianWord (bytes : List Byte) (k : Nat) : Nat :=
  ∑ j ∈ Finset.range 8, (bytes.getD (8 * k + j) 0).toNat * 2 ^ (8 * j)

/-- ALGO code `a` is one of 1 to 5 and its HAS_ALGO bit is set (60 R254). -/
abbrev algoUsable (b : Build) (a : Nat) : Prop := 1 ≤ a ∧ a ≤ 5 ∧ b.hasAlgo.getLsbD (a - 1) = true

/-- The ALGO field of a Format S command (30 R102). -/
def algoField : Instr → Option Nat
  | .seed a => some a
  | .seedent a => some a
  | .seeddraw a => some a
  | .nop => none
  | .next => none
  | .jump => none
  | .ljump => none
  | .udbl => none
  | .uflt => none
  | .cmpst => none
  | .rotl _ _ => none
  | .rotr _ _ => none
  | .rotli _ _ => none
  | .rotri _ _ => none
  | .sreset => none

/-- W and SH of a Format R command (30 R103). -/
def rotateFields : Instr → Option (Nat × Nat)
  | .rotl w n => some (w, n)
  | .rotr w n => some (w, n)
  | .rotli w n => some (w, n)
  | .rotri w n => some (w, n)
  | .nop => none
  | .seed _ => none
  | .seedent _ => none
  | .seeddraw _ => none
  | .next => none
  | .jump => none
  | .ljump => none
  | .udbl => none
  | .uflt => none
  | .cmpst => none
  | .sreset => none

/-- The checks of 60 R260 that come before the body, in its order; none where all pass. -/
def headFault (i : Instr) (s : State) : Option Cause :=
  if i.mnemonic = "SEEDENT" ∧ s.build.hasEntropy = false ∨ i.mnemonic ∈ ["UDBL", "UFLT"] ∧ s.build.hasUnit = false then
    some .featureAbsent
  else if ∃ a ∈ algoField i, ¬algoUsable s.build a then
    some .illegalAlgo
  else if i.mnemonic ∈ ["SEEDDRAW", "NEXT", "JUMP", "LJUMP", "UDBL", "UFLT", "CMPST"] ∧ s.algo = none then
    some .notSeeded
  else if i.mnemonic = "JUMP" ∧ s.algo = some .splitmix64
      ∨ i.mnemonic = "LJUMP" ∧ s.algo ∈ [some .splitmix64, some .xoroshiro128pdrbg] then
    some .unsupportedOp
  else if ∃ p ∈ rotateFields i, p.2 = 0 ∨ p.1 ≤ p.2 then
    some .rotRange
  else none

/-- Everything a faulting command leaves as it was: the context, SEED, OPERAND, OUT and EQ (60 R263). -/
def SameData (s t : State) : Prop :=
  t.algo = s.algo ∧ t.ctx = s.ctx ∧ t.seed = s.seed ∧ t.operand = s.operand ∧ t.out = s.out ∧ t.eq = s.eq

/-- What no command touches: the build, the level of `rst_n`, the held accesses, the agenda and the answers given. -/
def SameOutside (s t : State) : Prop :=
  t.build = s.build ∧ t.rstN = s.rstN ∧ t.held = s.held ∧ t.agenda = s.agenda ∧ t.answers = s.answers

/-- The block is out of reset and an arriving access is next: nothing held goes before it (20 R83). -/
def accessIsNext (s : State) (a : HostAccess) (rest : List Input) : Prop :=
  s.rstN = true ∧ (s.busy = true ∨ s.held = []) ∧ s.agenda = .host a :: rest

/-- The access is answered with `r`, and nothing else of the block changes. -/
def answeredWith (r : Response) (a : HostAccess) (rest : List Input) (s : State) : State :=
  { s with agenda := rest, answers := (a, r) :: s.answers }

/-- The access is held, and nothing else of the block changes. -/
def heldBack (a : HostAccess) (rest : List Input) (s : State) : State :=
  { s with agenda := rest, held := s.held ++ [a] }

/-- The offsets a write to which is a bus error, besides the reserved ones (20 R76, R79). -/
def readOnlyOffsets : List Nat := [0x00, 0x10, 0x18, 0x40, 0x48, 0x50, 0x58, 0x60]

/-- The value the table of 20 R75 gives a read at an offset below 0x70. -/
def windowValue (s : State) (off : Nat) : Word :=
  if off = 0x00 then idWord s.build
  else if off = 0x08 then 0
  else if off = 0x10 then statusWord s
  else if off = 0x18 then s.faultcmd
  else if off < 0x40 then s.seed.get ((off - 0x20) / 8)
  else if off < 0x60 then s.ctx.get ((off - 0x40) / 8)
  else if off = 0x60 then s.out
  else s.operand

/-- An access that is held while BUSY: admitted, and no read of ID or STATUS (20 R82). -/
def holdable (off : Nat) (op : AccessOp) : Prop :=
  off < 0x70 ∧ off % 8 = 0 ∧
    (op = .read ∧ off ≠ 0x00 ∧ off ≠ 0x10 ∨ ∃ v, op = .write 0xFF v ∧ off ∉ readOnlyOffsets)

/-- The response to a holdable access performed on an idle block, by the tables of 20 R75 and R76. -/
def accessResponse (s : State) (off : Nat) (op : AccessOp) : Response :=
  match op with
  | .read => .data (windowValue s off)
  | .write _ v => if off = 0x08 ∧ s.fault = true ∧ v ≠ 0x00000000000000FF#64 then .error else .okay

/-- The block after a holdable access performed on it while idle, by the tables of 20 R75 and R76. -/
def accessEffect (s : State) (off : Nat) (op : AccessOp) : State :=
  match op with
  | .read => s
  | .write _ v =>
    if off = 0x08 then
      if s.fault = true ∧ v ≠ 0x00000000000000FF#64 then s else { s with pend := v, busy := true }
    else if off = 0x68 then { s with operand := v }
    else { s with seed := s.seed.set ((off - 0x20) / 8) v }

/-- The block after a holdable access `a` is performed and answered, with `held` and `agenda` left. -/
def afterAccess (a : HostAccess) (off : Nat) (held : List HostAccess) (agenda : List Input) (s : State) : State :=
  { accessEffect s off a.op with
    held := held, agenda := agenda, answers := (a, accessResponse s off a.op) :: s.answers }

/-- The block moves next and leaves `rest` on the agenda: a turn stands first, or nothing does. -/
def turnIsNext (s : State) (rest : List Input) : Prop :=
  s.agenda = .clock :: rest ∨ s.agenda = [] ∧ rest = []

/-- This step runs command `i`: the engine moves, and PEND holds a word of `i`. -/
def stepRuns (s : State) (i : Instr) : Prop :=
  s.rstN = true ∧ s.busy = true ∧ (s.agenda = [] ∨ s.agenda.head? = some .clock) ∧ decode s.pend = .ok i

/-- This step is the assertion of `rst_n`. -/
def stepAssertsReset (s : State) : Prop := s.agenda.head? = some .rstLow

/-- This step performs a host write of `v` at a register offset. -/
def stepStores (s t : State) (off : Nat) (v : Word) : Prop :=
  s.busy = false ∧ ∃ a, a.addr = s.build.baseAddr + off ∧ a.size = 8 ∧ a.op = .write 0xFF v ∧ t.answers = (a, .okay) :: s.answers

/-- Every row of the table of reset values but ID's (70 R291). -/
def AtResetValues (r : State) : Prop :=
  r.algo = none ∧ r.ctx = Quad.zero ∧ r.seed = Quad.zero ∧ r.out = 0 ∧ r.operand = 0 ∧ r.eq = false ∧
  r.fault = false ∧ r.cause = .noFault ∧ r.faultcmd = 0 ∧ r.busy = false ∧ r.waitEnt = false ∧ statusWord r = 0 ∧
  irq r = false ∧ entReq r ≠ some true ∧ r.pend = 0 ∧ r.ebuf = Quad.zero ∧ r.ecnt = 0

/-- The outputs of a run of commands: OUT after each NEXT (41 R150). A command that does not answer ends the run. -/
def nextOutputs : List Instr → State → List Word
  | [], _ => []
  | i :: is, s =>
    match exec i s with
    | .next t => if i = .next then t.out :: nextOutputs is t else nextOutputs is t
    | .fault _ => []
    | .refused _ => []

end Sys2Proof.Machine
end

