-- ==== Sys2Proof/Certificates/Slice0/Obligations.lean ====
section
/-! DEFINITION. The statements for the provers. Each docstring names the rule of spec/ it formalises. A statement about a command gives the
whole next state as an equation, so it says the result, the frame and that the command completes. `complete` and `takeFault` set BUSY and
WAIT_ENT to 0 and also clear the engine's hidden state, which no access can observe (10 R51): that clearing is the model's choice (log 5), no
cited rule's, and a docstring that says "log 5" says so of its statement. A statement named `X` with hypotheses has its witness in
Tests/Slice0.lean, `witness_X`. -/

open Sys2Proof Sys2Proof.Machine

/-! ### Encoding -/

/-- 30 R114: every row of the table of worked encodings, both ways. -/
def Obligations.WorkedEncodingsAgree : Prop :=
  ∀ p ∈ ([(.nop, 0x0000000000000000#64), (.seed 1, 0x0000000000000101#64), (.seed 2, 0x0000000000000201#64),
      (.seed 3, 0x0000000000000301#64), (.seed 4, 0x0000000000000401#64), (.seed 5, 0x0000000000000501#64),
      (.seedent 5, 0x0000000000000502#64)] ++
    [(.seeddraw 5, 0x0000000000000503#64), (.next, 0x0000000000000004#64), (.jump, 0x0000000000000005#64),
      (.ljump, 0x0000000000000006#64), (.udbl, 0x0000000000000007#64), (.uflt, 0x0000000000000008#64),
      (.cmpst, 0x0000000000000009#64)] ++
    [(.rotl 32 16, 0x0000000000102010#64), (.rotl 32 3, 0x0000000000032010#64), (.rotr 32 3, 0x0000000000032011#64),
      (.rotli 32 16, 0x0000000000102012#64), (.rotri 64 63, 0x00000000003F3013#64), (.rotl 8 1, 0x0000000000010010#64),
      (.sreset, 0x00000000000000FF#64)] : List (Instr × Word)),
    decode p.2 = .ok p.1 ∧ encode p.1 = p.2

/-- 30 R101 to R107: decoding the word of a well-formed command gives the command back, with every operand. -/
def Obligations.DecodeInvertsEncode : Prop :=
  ∀ i : Instr, i.wellFormed = true → decode (encode i) = .ok i

/-- 30 R100 to R107: a word that decodes is the word of the command it decodes to, so no two words are one command and no bit is dropped. -/
def Obligations.DecodedWordIsTheEncoding : Prop :=
  ∀ (c : Word) (i : Instr), decode c = .ok i → i.wellFormed = true ∧ encode i = c

/-- 30 R108: a word is legal exactly when a row of the table has its bits, that row is the only one, and the word decodes to its command. -/
def Obligations.LegalWordsAreTheTablesWords : Prop :=
  (∀ (c : Word) (i : Instr), decode c = .ok i → ∃ r ∈ opcodeTable, r.hits c = true ∧ r.mnemonic = i.mnemonic) ∧
  (∀ c : Word, ∀ r ∈ opcodeTable, r.hits c = true → ∃ i, decode c = .ok i ∧ i.mnemonic = r.mnemonic) ∧
  (∀ c : Word, ∀ r ∈ opcodeTable, ∀ r' ∈ opcodeTable, r.hits c = true → r'.hits c = true → r = r')

/-- 10 R48, 30 R104: the codes and tuple widths of the five algorithms; no other code names one. -/
def Obligations.AlgorithmCodesAndWidths : Prop :=
  (Algo.splitmix64.code = 1 ∧ Algo.splitmix64.width = 1) ∧
  (Algo.xoroshiro128p.code = 2 ∧ Algo.xoroshiro128p.width = 2) ∧
  (Algo.xoroshiro128pp.code = 3 ∧ Algo.xoroshiro128pp.width = 2) ∧
  (Algo.xoroshiro128pdrbg.code = 4 ∧ Algo.xoroshiro128pdrbg.width = 2) ∧
  (Algo.xoshiro256pp.code = 5 ∧ Algo.xoshiro256pp.width = 4) ∧
  (∀ (a : Nat) (A : Algo), Algo.ofCode a = some A ↔ A.code = a)

/-! ### Rotation -/

/-- 40 R130, R131, R132, R134: ROTL writes OUT and ROTLI writes OPERAND with OPERAND[W-1:0] rotated left by SH and zero-extended, for 0 < SH < W;
any other SH faults ROT_RANGE and writes neither. No algorithm is needed. (Hidden state: log 5.) -/
def Obligations.LeftRotationsMoveTheOperandsBits : Prop :=
  ∀ (s : State) (w n : Nat), w ∈ [8, 16, 32, 64] →
    (0 < n ∧ n < w → ∃ v, RotatedBits w (leftSource w n) s.operand v ∧
      exec (.rotl w n) s = .next (complete { s with out := v }) ∧
      exec (.rotli w n) s = .next (complete { s with operand := v })) ∧
    (n = 0 ∨ w ≤ n →
      exec (.rotl w n) s = .next (takeFault .rotRange s) ∧ exec (.rotli w n) s = .next (takeFault .rotRange s))

/-- 40 R130, R131, R133, R135: the same for ROTR and ROTRI, to the right. (Hidden state: log 5.) -/
def Obligations.RightRotationsMoveTheOperandsBits : Prop :=
  ∀ (s : State) (w n : Nat), w ∈ [8, 16, 32, 64] →
    (0 < n ∧ n < w → ∃ v, RotatedBits w (rightSource w n) s.operand v ∧
      exec (.rotr w n) s = .next (complete { s with out := v }) ∧
      exec (.rotri w n) s = .next (complete { s with operand := v })) ∧
    (n = 0 ∨ w ≤ n →
      exec (.rotr w n) s = .next (takeFault .rotRange s) ∧ exec (.rotri w n) s = .next (takeFault .rotRange s))

/-- 40 R136: left by s and right by W - s are one rotation, as values and as commands. -/
def Obligations.LeftAndRightRotationsAreDual : Prop :=
  ∀ (w n : Nat), w ∈ [8, 16, 32, 64] → 0 < n → n < w →
    (∀ x : BitVec w, rotl w x n = rotr w x (w - n)) ∧
    (∀ s : State, exec (.rotl w n) s = exec (.rotr w (w - n)) s ∧ exec (.rotli w n) s = exec (.rotri w (w - n)) s)

/-- 40 R137: ROTLI by s and then by t with s + t = W leaves OPERAND[W-1:0] and clears the bits above it; where (s + t) mod W is not zero, the two
are one ROTLI by it. -/
def Obligations.LeftRotationsCompose : Prop :=
  ∀ (s : State) (w n m : Nat), w ∈ [8, 16, 32, 64] → 0 < n → n < w → 0 < m → m < w →
    ∃ t u, exec (.rotli w n) s = .next t ∧ exec (.rotli w m) t = .next u ∧
      (n + m = w → u.operand = (s.operand.setWidth w).setWidth 64) ∧
      ((n + m) % w ≠ 0 → exec (.rotli w ((n + m) % w)) s = .next u)

/-! ### The generators -/

/-- 42 R180, R181, R182: NEXT on SPLITMIX64, on numbers modulo 2^64. (Hidden state: log 5.) -/
def Obligations.NextOnSplitMix64 : Prop :=
  ∀ s : State, s.algo = some .splitmix64 →
    exec .next s = .next (complete { s with
      out := BitVec.ofNat 64 (splitMixOutput (splitMixState s.ctx.w0.toNat))
      ctx := { s.ctx with w0 := BitVec.ofNat 64 (splitMixState s.ctx.w0.toNat) } })

/-- 43 R190 to R193: NEXT on the three Xoroshiro128 variants. (Hidden state: log 5.) -/
def Obligations.NextOnXoroshiro128 : Prop :=
  ∀ s : State,
    (s.algo = some .xoroshiro128p →
      exec .next s = .next (complete { s with out := s.ctx.w0 + s.ctx.w1, ctx := xoroNext 24 16 37 s.ctx })) ∧
    (s.algo = some .xoroshiro128pp →
      exec .next s = .next (complete { s with
        out := (s.ctx.w0 + s.ctx.w1).rotateLeft 17 + s.ctx.w0, ctx := xoroNext 49 21 28 s.ctx })) ∧
    (s.algo = some .xoroshiro128pdrbg →
      exec .next s = .next (complete { s with out := s.ctx.w0 + s.ctx.w1, ctx := xoroNext 55 14 36 s.ctx }))

/-- 44 R211, R212: NEXT on XOSHIRO256PP, by the closed form. (Hidden state: log 5.) -/
def Obligations.NextOnXoshiro256 : Prop :=
  ∀ s : State, s.algo = some .xoshiro256pp →
    exec .next s = .next (complete { s with
      out := (s.ctx.w0 + s.ctx.w3).rotateLeft 23 + s.ctx.w0, ctx := xoshiroNext s.ctx })

/-- 43 R197: the shared core is a bijection with the stated inverse, linear over GF(2), and keeps a nonzero pair nonzero. -/
def Obligations.XoroCoreIsALinearBijection : Prop :=
  ∀ (a b c : Nat), 0 < a → a < 64 → 0 < b → b < 64 → 0 < c → c < 64 →
    (∀ s0 s1 : Word, xoroInverse a b c (xoroCore a b c s0 s1) = (s0, s1)) ∧
    (∀ n : Word × Word, xoroCore a b c (xoroInverse a b c n).1 (xoroInverse a b c n).2 = n) ∧
    (∀ s0 s1 t0 t1 : Word, xoroCore a b c (s0 ^^^ t0) (s1 ^^^ t1) =
      ((xoroCore a b c s0 s1).1 ^^^ (xoroCore a b c t0 t1).1, (xoroCore a b c s0 s1).2 ^^^ (xoroCore a b c t0 t1).2)) ∧
    (∀ s0 s1 : Word, (s0, s1) ≠ (0, 0) → xoroCore a b c s0 s1 ≠ (0, 0))

/-- 44 R214: the Xoshiro256++ update is a bijection with the stated inverse, linear over GF(2), and keeps a nonzero tuple nonzero. -/
def Obligations.XoshiroUpdateIsALinearBijection : Prop :=
  (∀ q : Quad, xoshiroInverse (advance .xoshiro256pp q) = q) ∧
  (∀ q : Quad, advance .xoshiro256pp (xoshiroInverse q) = q) ∧
  (∀ p q : Quad, advance .xoshiro256pp (p.xor q) = (advance .xoshiro256pp p).xor (advance .xoshiro256pp q)) ∧
  (∀ q : Quad, q ≠ Quad.zero → advance .xoshiro256pp q ≠ Quad.zero)

/-- 41 R150, R151, 45 R228: NEXT, JUMP and LJUMP read only ALGO and S, so contexts that agree give the same outputs for ever, whatever OUT, OPERAND,
SEED, EQ and the entropy port hold. -/
def Obligations.EqualContextsGiveEqualOutputs : Prop :=
  ∀ (is : List Instr) (s t : State), (∀ i ∈ is, i = .next ∨ i = .jump ∨ i = .ljump) →
    s.algo ≠ none → s.algo = t.algo → s.ctx = t.ctx → nextOutputs is s = nextOutputs is t

/-- 45 R220, R221, R224: JUMP leaves in S[0..N-1] the exclusive OR of the tuples at which the constant's bits are set, and nothing else changes;
SPLITMIX64 has no jump. (Hidden state: log 5.) -/
def Obligations.JumpAccumulatesSelectedTuples : Prop :=
  ∀ s : State,
    (s.algo = none → exec .jump s = .next (takeFault .notSeeded s)) ∧
    (s.algo = some .splitmix64 → exec .jump s = .next (takeFault .unsupportedOp s)) ∧
    (∀ A, s.algo = some A → A ≠ .splitmix64 → ∃ K, jumpConst A = some K ∧ K.length = A.width ∧
      exec .jump s = .next (complete { s with ctx := A.merge (selectedSum A K s.ctx) s.ctx }))

/-- 45 R220, R221, R225: the same for LJUMP, which XOROSHIRO128PDRBG lacks too. (Hidden state: log 5.) -/
def Obligations.LongJumpAccumulatesSelectedTuples : Prop :=
  ∀ s : State,
    (s.algo = none → exec .ljump s = .next (takeFault .notSeeded s)) ∧
    (s.algo = some .splitmix64 ∨ s.algo = some .xoroshiro128pdrbg → exec .ljump s = .next (takeFault .unsupportedOp s)) ∧
    (∀ A, s.algo = some A → A ≠ .splitmix64 → A ≠ .xoroshiro128pdrbg → ∃ K, ljumpConst A = some K ∧ K.length = A.width ∧
      exec .ljump s = .next (complete { s with ctx := A.merge (selectedSum A K s.ctx) s.ctx }))

/-- 45 R222, the Xoroshiro128 family: JUMP is 2^64 steps, LJUMP is 2^96. (Hidden state: log 5.) -/
def Obligations.XoroshiroJumpsEqualTheirSteps : Prop :=
  ∀ s : State,
    (∀ A, A = .xoroshiro128p ∨ A = .xoroshiro128pp ∨ A = .xoroshiro128pdrbg → s.algo = some A →
      exec .jump s = .next (complete { s with ctx := (advance A)^[2 ^ 64] s.ctx })) ∧
    (∀ A, A = .xoroshiro128p ∨ A = .xoroshiro128pp → s.algo = some A →
      exec .ljump s = .next (complete { s with ctx := (advance A)^[2 ^ 96] s.ctx }))

/-- 45 R222, Xoshiro256++: JUMP is 2^128 steps, LJUMP is 2^192. (Hidden state: log 5.) -/
def Obligations.XoshiroJumpsEqualTheirSteps : Prop :=
  ∀ s : State, s.algo = some .xoshiro256pp →
    exec .jump s = .next (complete { s with ctx := (advance .xoshiro256pp)^[2 ^ 128] s.ctx }) ∧
    exec .ljump s = .next (complete { s with ctx := (advance .xoshiro256pp)^[2 ^ 192] s.ctx })

/-- 45 R226: a jump is linear over GF(2), and JUMP or LJUMP then NEXT leaves the same S as NEXT then the jump. -/
def Obligations.JumpsCommuteWithNext : Prop :=
  (∀ (A : Algo) (K : List Word) (p q : Quad), jumpConst A = some K ∨ ljumpConst A = some K →
    jumpWith A K (p.xor q) = (jumpWith A K p).xor (jumpWith A K q)) ∧
  (∀ (s : State) (A : Algo) (i : Instr), s.algo = some A →
    (i = .jump ∧ jumpConst A ≠ none) ∨ (i = .ljump ∧ ljumpConst A ≠ none) →
    ∃ t t' u u', exec i s = .next t ∧ exec .next t = .next t' ∧ exec .next s = .next u ∧ exec i u = .next u' ∧
      t'.ctx = u'.ctx)

/-! ### Unit-interval conversion -/

/-- 46 R240, R244: UnitDoubleBits encodes (w >> 11) · 2^-53 exactly: +0.0 for 0, and else a normal positive number with exponent 970 to 1022
whose value (2^52 + fraction) · 2^(exponent - 1075) is that number. -/
def Obligations.UnitDoubleIsExact : Prop :=
  ∀ w : Word,
    (w.toNat / 2 ^ 11 = 0 → unitDoubleBits w = 0) ∧
    (w.toNat / 2 ^ 11 ≠ 0 →
      (unitDoubleBits w).getLsbD 63 = false ∧ 970 ≤ exponent64 (unitDoubleBits w) ∧ exponent64 (unitDoubleBits w) ≤ 1022 ∧
      (2 ^ 52 + fraction64 (unitDoubleBits w)) * 2 ^ exponent64 (unitDoubleBits w) = w.toNat / 2 ^ 11 * 2 ^ 1022)

/-- 46 R241, R244: UnitFloatBits encodes (w >> 40) · 2^-24 exactly: +0.0 for 0, and else a normal positive number with exponent 103 to 126 whose
value (2^23 + fraction) · 2^(exponent - 150) is that number. -/
def Obligations.UnitFloatIsExact : Prop :=
  ∀ w : Word,
    (w.toNat / 2 ^ 40 = 0 → unitFloatBits w = 0) ∧
    (w.toNat / 2 ^ 40 ≠ 0 →
      (unitFloatBits w).getLsbD 31 = false ∧ 103 ≤ exponent32 (unitFloatBits w) ∧ exponent32 (unitFloatBits w) ≤ 126 ∧
      (2 ^ 23 + fraction32 (unitFloatBits w)) * 2 ^ exponent32 (unitFloatBits w) = w.toNat / 2 ^ 40 * 2 ^ 126)

/-- 46 R245: UDBL's OUT is at most 1 - 2^-53 and below 1.0, UFLT's OUT[31:0] is at most 1 - 2^-24 and below 1.0, both with sign bit 0, for every raw
word. -/
def Obligations.UnitOutputsLieBelowOne : Prop :=
  (∀ w : Word, (unitDoubleBits w).toNat ≤ 0x3FEFFFFFFFFFFFFF ∧ (unitDoubleBits w).getLsbD 63 = false ∧
    (unitFloatBits w).toNat ≤ 0x3F7FFFFF ∧ (unitFloatBits w).getLsbD 31 = false) ∧
  (∀ s : State, s.build.hasUnit = true → s.algo ≠ none →
    ∃ t u, exec .udbl s = .next t ∧ exec .uflt s = .next u ∧
      t.out.toNat < 0x3FF0000000000000 ∧ u.out.toNat < 0x3F800000)

/-- 46 R242, R243: UDBL and UFLT draw exactly as one NEXT does and leave the converted word in OUT; without the converter they fault
FEATURE_ABSENT, and without a context NOT_SEEDED. (Hidden state: log 5.) -/
def Obligations.UnitCommandsDrawOnce : Prop :=
  ∀ s : State,
    (s.build.hasUnit = true → s.algo ≠ none → ∃ t, exec .next s = .next t ∧
      exec .udbl s = .next { t with out := unitDoubleBits t.out } ∧
      exec .uflt s = .next { t with out := (unitFloatBits t.out).setWidth 64 }) ∧
    (s.build.hasUnit = true → s.algo = none →
      exec .udbl s = .next (takeFault .notSeeded s) ∧ exec .uflt s = .next (takeFault .notSeeded s)) ∧
    (s.build.hasUnit = false →
      exec .udbl s = .next (takeFault .featureAbsent s) ∧ exec .uflt s = .next (takeFault .featureAbsent s))

/-! ### Seeding, comparison and control -/

/-- 41 R152, R153, R154: SEED. (Hidden state: log 5.) -/
def Obligations.SeedLoadsTheStagedWords : Prop :=
  ∀ s : State,
    (∀ a, ¬ algoUsable s.build a → exec (.seed a) s = .next (takeFault .illegalAlgo s)) ∧
    (∀ A : Algo, algoUsable s.build A.code → SeedRejected A s.seed.get →
      exec (.seed A.code) s = .next (takeFault .zeroSeed s)) ∧
    (∀ A : Algo, algoUsable s.build A.code → SeedAccepted A s.seed.get → ∃ q, Committed A s.seed.get q ∧
      exec (.seed A.code) s = .next (complete { s with algo := some A, ctx := q }))

/-- 41 R155, 20 R91, R92: SEEDENT from its start, with its 8·N bytes acknowledged on consecutive edges: byte 8k + j is bits [8j+7:8j] of word k,
and the entropy port keeps what comes after them. (Hidden state: log 5; the port's samples as a list: log 2.) -/
def Obligations.SeedentAssemblesTheEntropyBytes : Prop :=
  ∀ (s : State) (A : Algo) (bytes : List Byte) (rest : List EntSample) (w : Nat → Word),
    s.waitEnt = false → s.build.hasEntropy = true → algoUsable s.build A.code → bytes.length = 8 * A.width →
    s.entropy = byteEdges bytes ++ rest → (∀ k, k < A.width → (w k).toNat = littleEndianWord bytes k) →
    (SeedAccepted A w → ∃ q, Committed A w q ∧
      exec (.seedent A.code) s = .next (complete { s with algo := some A, ctx := q, entropy := rest })) ∧
    (SeedRejected A w → exec (.seedent A.code) s = .next (takeFault .zeroSeed { s with entropy := rest }))

/-- 20 R93, 60 R258: a failure sampled before the 8·N bytes are there ends SEEDENT with ENTROPY_FAIL, whether or not a byte is acknowledged on the
same edge; the bytes are discarded and the context is unchanged. It holds at the start of the wait and in the middle of it. (Hidden state: log 5.) -/
def Obligations.EntropyFailureIsPrecise : Prop :=
  ∀ (s : State) (A : Algo) (bytes : List Byte) (e : EntSample) (rest : List EntSample),
    s.build.hasEntropy = true → algoUsable s.build A.code →
    (if s.waitEnt then s.ecnt else 0) + bytes.length < 8 * A.width →
    s.entropy = byteEdges bytes ++ e :: rest → e.fail = true →
    exec (.seedent A.code) s = .next (takeFault .entropyFail { s with entropy := rest })

/-- 20 R84, R91: an edge without an answer only delays SEEDENT: the engine waits with BUSY as it was and WAIT_ENT = 1, has changed no other
architectural state, and goes on as if the edge had not been. -/
def Obligations.SilentEdgesOnlyDelaySeedent : Prop :=
  ∀ (s : State) (A : Algo) (bytes : List Byte) (e : EntSample) (rest : List EntSample),
    s.build.hasEntropy = true → algoUsable s.build A.code →
    (if s.waitEnt then s.ecnt else 0) + bytes.length < 8 * A.width →
    s.entropy = byteEdges bytes ++ e :: rest → e.silent →
    ∃ t, exec (.seedent A.code) s = .next t ∧ t.waitEnt = true ∧ t.busy = s.busy ∧ t.pend = s.pend ∧
      SameData s t ∧ SameOutside s t ∧ t.fault = s.fault ∧ t.cause = s.cause ∧ t.faultcmd = s.faultcmd ∧
      exec (.seedent A.code) t = exec (.seedent A.code) { s with entropy := byteEdges bytes ++ rest }

/-- 41 R156: SEEDDRAW draws word k of the new seed at step k of the current generator, and discards that generator. (Hidden state: log 5.) -/
def Obligations.SeeddrawDrawsInOrder : Prop :=
  ∀ s : State,
    (∀ a, ¬ algoUsable s.build a → exec (.seeddraw a) s = .next (takeFault .illegalAlgo s)) ∧
    (∀ a, algoUsable s.build a → s.algo = none → exec (.seeddraw a) s = .next (takeFault .notSeeded s)) ∧
    (∀ A B : Algo, algoUsable s.build A.code → s.algo = some B →
      SeedRejected A (fun k => (genStep B ((advance B)^[k] s.ctx)).1) →
      exec (.seeddraw A.code) s = .next (takeFault .zeroSeed s)) ∧
    (∀ A B : Algo, algoUsable s.build A.code → s.algo = some B →
      SeedAccepted A (fun k => (genStep B ((advance B)^[k] s.ctx)).1) →
      ∃ q, Committed A (fun k => (genStep B ((advance B)^[k] s.ctx)).1) q ∧
        exec (.seeddraw A.code) s = .next (complete { s with algo := some A, ctx := q }))

/-- 41 R163 with R152, R156 and 42 R181: drawing an XOR/shift generator's seed from SPLITMIX64 never gives the all-zero tuple, so chained seeding
always completes. -/
def Obligations.ChainedSeedingNeverFaults : Prop :=
  ∀ (s : State) (A : Algo), s.algo = some .splitmix64 → algoUsable s.build A.code →
    ∃ t, exec (.seeddraw A.code) s = .next t ∧ t.algo = some A ∧ t.fault = s.fault

/-- 41 R162: SEED with the saved words and the saved algorithm restores a saved context, in any state of the same build. -/
def Obligations.CheckpointRestoresTheContext : Prop :=
  ∀ (s r : State) (A : Algo), s.algo = some A → tailZero s → NonzeroContext s → algoBuilt s → r.build = s.build →
    (∀ k, k < A.width → r.seed.get k = s.ctx.get k) →
    ∃ t, exec (.seed A.code) r = .next t ∧ t.algo = s.algo ∧ t.ctx = s.ctx ∧ t.fault = r.fault

/-- 41 R158: CMPST writes EQ with the comparison of S[0..N-1] and SEED[0..N-1]. (Hidden state: log 5.) -/
def Obligations.CmpstComparesTheLiveWords : Prop :=
  ∀ s : State,
    (s.algo = none → exec .cmpst s = .next (takeFault .notSeeded s)) ∧
    (∀ A, s.algo = some A →
      exec .cmpst s = .next (complete { s with eq := decide (∀ k < A.width, s.ctx.get k = s.seed.get k) }))

/-- 41 R157, R159: NOP changes nothing; NEXT without a context faults NOT_SEEDED. (Hidden state: log 5.) -/
def Obligations.NopAndUnseededNext : Prop :=
  ∀ s : State, exec .nop s = .next (complete s) ∧ (s.algo = none → exec .next s = .next (takeFault .notSeeded s))

/-- 41 R160, 70 R291: SRESET leaves every register of the block at its reset value; the build, the level of `rst_n`, the held accesses and the
outside world's inputs and answers are no register's and stay. -/
def Obligations.SresetIsTheResetOfEveryRegister : Prop :=
  ∀ s : State, exec .sreset s = .next { State.reset with
    build := s.build, rstN := s.rstN, held := s.held, agenda := s.agenda, entropy := s.entropy, answers := s.answers }

/-- 70 R291: the table of reset values, for SRESET, for `rst_n` and for the reset state; ID is unchanged, `irq` and `ent_req` are 0. -/
def Obligations.ResetsLeaveTheResetValues : Prop :=
  (∀ s : State, ∃ t, exec .sreset s = .next t ∧ AtResetValues t ∧ idWord t.build = idWord s.build) ∧
  (∀ s : State, stepAssertsReset s → ∃ t, step s = .next t ∧ AtResetValues t ∧ idWord t.build = idWord s.build) ∧
  AtResetValues State.reset

/-! ### Faults -/

/-- 60 R260: a command reports the first fault that applies, in the stated order; an illegal word comes before all; where no check before the body
applies, only a seeding command can still fault, with ENTROPY_FAIL or ZERO_SEED. (Hidden state: log 5.) -/
def Obligations.FirstApplicableFaultIsReported : Prop :=
  (∀ s : State, (∀ i, decode s.pend ≠ .ok i) → runCommand s = .next (takeFault .illegalOpcode s)) ∧
  (∀ (s : State) (i : Instr), decode s.pend = .ok i → runCommand s = exec i s) ∧
  (∀ (s : State) (i : Instr) (k : Cause), headFault i s = some k → exec i s = .next (takeFault k s)) ∧
  (∀ (s t : State) (i : Instr), headFault i s = none → exec i s = .next t → s.fault = false → t.fault = true →
    algoField i ≠ none ∧ (t.cause = .zeroSeed ∨ (i.mnemonic = "SEEDENT" ∧ t.cause = .entropyFail)))

/-- 60 R252: every illegal word faults ILLEGAL_OPCODE when the engine runs it, on a turn or with nothing on the agenda, whatever the state; R252's
four examples are illegal. (Hidden state: log 5; FAULTCMD from PEND: log 14.) -/
def Obligations.IllegalWordsFault : Prop :=
  (∀ (s : State) (rest : List Input), (∀ r ∈ opcodeTable, r.hits s.pend = false) →
    s.rstN = true → s.busy = true → turnIsNext s rest →
    step s = .next (takeFault .illegalOpcode { s with agenda := rest })) ∧
  (∀ c ∈ [0x000000000000000A#64, 0x0000000000000100#64, 0x0000000000000801#64, 0x00000000000001FF#64],
    ∀ r ∈ opcodeTable, r.hits c = false)

/-- 60 R262, R263: a fault sets FAULT, records the cause and the accepted word, clears BUSY and WAIT_ENT, and leaves everything else as it was.
(FAULTCMD from PEND: log 14.) -/
def Obligations.FaultsArePrecise : Prop :=
  ∀ (s t : State) (i : Instr), exec i s = .next t → s.fault = false → t.fault = true →
    t.faultcmd = s.pend ∧ t.cause ≠ .noFault ∧ t.waitEnt = false ∧ t.busy = false ∧ SameData s t ∧ SameOutside s t

/-- 60 R266, 10 R37, R39: FAULT, CAUSE and FAULTCMD stay as the first fault left them until SRESET runs or `rst_n` is asserted. -/
def Obligations.FirstFaultStaysUntilReset : Prop :=
  ∀ s t : State, faultedRunsOnlyReset s → s.fault = true → step s = .next t →
    (t.fault = true ∧ t.cause = s.cause ∧ t.faultcmd = s.faultcmd) ∨ stepRuns s .sreset ∨ stepAssertsReset s

/-- 60 R264: while FAULT = 1 a CMD write is a bus error and changes nothing, except the SRESET word, which is accepted; SEED0..3 and OPERAND stay
writable and every register readable. -/
def Obligations.FaultedBlockRefusesCommands : Prop :=
  ∀ (s : State) (a : HostAccess) (rest : List Input) (v : Word) (off : Nat),
    s.fault = true → s.busy = false → accessIsNext s a rest → a.addr = s.build.baseAddr + off → a.size = 8 →
    (off = 0x08 → a.op = .write 0xFF v → v ≠ 0x00000000000000FF#64 → step s = .next (answeredWith .error a rest s)) ∧
    (off = 0x08 → a.op = .write 0xFF v → v = 0x00000000000000FF#64 →
      step s = .next { answeredWith .okay a rest s with pend := v, busy := true }) ∧
    (∀ k, k < 4 → off = 0x20 + 8 * k → a.op = .write 0xFF v →
      step s = .next { answeredWith .okay a rest s with seed := s.seed.set k v }) ∧
    (off = 0x68 → a.op = .write 0xFF v → step s = .next { answeredWith .okay a rest s with operand := v }) ∧
    (off < 0x70 → off % 8 = 0 → a.op = .read → step s = .next (answeredWith (.data (windowValue s off)) a rest s))

/-! ### Host accesses -/

/-- 20 R75: MemRead. -/
def Obligations.HostReadsReturnTheRegister : Prop :=
  ∀ (s : State) (a : HostAccess) (rest : List Input) (off : Nat),
    accessIsNext s a rest → a.addr = s.build.baseAddr + off → off < 256 → off % 8 = 0 → a.size = 8 → a.op = .read →
    (0x70 ≤ off → step s = .next (answeredWith .error a rest s)) ∧
    (off < 0x70 → s.busy = true → off ≠ 0x00 → off ≠ 0x10 → step s = .next (heldBack a rest s)) ∧
    (off < 0x70 → s.busy = false ∨ off = 0x00 ∨ off = 0x10 →
      step s = .next (answeredWith (.data (windowValue s off)) a rest s))

/-- 20 R76: MemWrite. -/
def Obligations.HostWritesStoreOrIssue : Prop :=
  ∀ (s : State) (a : HostAccess) (rest : List Input) (off : Nat) (v : Word),
    accessIsNext s a rest → a.addr = s.build.baseAddr + off → off < 256 → off % 8 = 0 → a.size = 8 → a.op = .write 0xFF v →
    (0x70 ≤ off ∨ off ∈ readOnlyOffsets → step s = .next (answeredWith .error a rest s)) ∧
    (off < 0x70 → off ∉ readOnlyOffsets → s.busy = true → step s = .next (heldBack a rest s)) ∧
    (s.busy = false →
      (∀ k, k < 4 → off = 0x20 + 8 * k → step s = .next { answeredWith .okay a rest s with seed := s.seed.set k v }) ∧
      (off = 0x68 → step s = .next { answeredWith .okay a rest s with operand := v }) ∧
      (off = 0x08 → s.fault = true → v ≠ 0x00000000000000FF#64 → step s = .next (answeredWith .error a rest s)) ∧
      (off = 0x08 → s.fault = false ∨ v = 0x00000000000000FF#64 →
        step s = .next { answeredWith .okay a rest s with pend := v, busy := true }))

/-- 20 R73, R74, R78: an access of the wrong size, at an unaligned or reserved offset, with a strobe missing, or a write to a read-only register is a
bus error at once, even while BUSY, and changes no state (R79, R82). (A wrong-size access that leaves the window is the block's by log 15.) -/
def Obligations.BusErrorsChangeNothing : Prop :=
  ∀ (s : State) (a : HostAccess) (rest : List Input) (off : Nat),
    accessIsNext s a rest → a.addr = s.build.baseAddr + off → off < 256 →
    a.size ≠ 8 ∨ off % 8 ≠ 0 ∨ 0x70 ≤ off ∨
      (∃ strobes v, a.op = .write strobes v ∧ (strobes ≠ 0xFF ∨ off ∈ readOnlyOffsets)) →
    step s = .next (answeredWith .error a rest s)

/-- 20 R82, R83, 70 R296, R297: any access that is held, a read of a register or a write to SEED, OPERAND or CMD, arriving behind a command, waits
and is then performed against the state the command left; what the access is has no effect on the command. -/
def Obligations.ReadBehindACommandSeesItsResult : Prop :=
  ∀ (s t : State) (i : Instr) (a : HostAccess) (off : Nat) (more : List Input),
    s.rstN = true → s.busy = true → s.held = [] → decode s.pend = .ok i →
    a.addr = s.build.baseAddr + off → a.size = 8 → holdable off a.op →
    s.agenda = .host a :: .clock :: .clock :: more →
    exec i { s with agenda := .clock :: more } = .next t → t.busy = false →
    core.run 2 s = .next { t with held := [a] } ∧ core.run 3 s = .next (afterAccess a off [] more t)

/-- 20 R82, R83, 70 R297, R304: in every idle state with held accesses the next step performs the oldest, against the state as it is, answers it and
leaves the others held: on a turn, with nothing on the agenda, and before an access that arrives later, which stays on the agenda. While the
engine moves, no step performs, answers or drops a held access. That the later access waits on the agenda until the oldest held one is performed
is the model's reading of R82 with R83 (log 11, DEDUCED). -/
def Obligations.HeldAccessesArePerformedInOrder : Prop :=
  (∀ (s : State) (a : HostAccess) (off : Nat) (others : List HostAccess),
    s.rstN = true → s.busy = false → s.held = a :: others → a.addr = s.build.baseAddr + off → a.size = 8 → holdable off a.op →
    (∀ rest, turnIsNext s rest → step s = .next (afterAccess a off others rest s)) ∧
    (∀ b rest, s.agenda = .host b :: rest → step s = .next (afterAccess a off others s.agenda s))) ∧
  (∀ (s t : State) (rest : List Input), s.rstN = true → s.busy = true → turnIsNext s rest → step s = .next t →
    t.held = s.held ∧ t.answers = s.answers)

/-- 20 R72: register bits [8j+7:8j] are the byte at register offset + j, little-endian. -/
def Obligations.RegisterBytesAreLittleEndian : Prop :=
  ∀ (s : State) (off j : Nat), off < 0x70 → off % 8 = 0 → j < 8 →
    windowByte s (off + j) = some (byteLane (windowValue s off) j) ∧
    (∀ i, i < 8 → (byteLane (windowValue s off) j).getLsbD i = (windowValue s off).getLsbD (8 * j + i)) ∧
    (windowValue s off).toNat = ∑ k ∈ Finset.range 8, (byteLane (windowValue s off) k).toNat * 2 ^ (8 * k)

/-- 10 R35, R42: the fields of STATUS, in every state. -/
def Obligations.StatusShowsTheFields : Prop :=
  ∀ s : State,
    (statusWord s).getLsbD 0 = s.busy ∧ (statusWord s).getLsbD 1 = s.fault ∧ (statusWord s).getLsbD 2 = s.eq ∧
    (statusWord s).getLsbD 3 = false ∧ ((statusWord s).extractLsb' 4 4).toNat = causeCode s.cause ∧
    ((statusWord s).extractLsb' 8 3).toNat = algoCode s.algo ∧ (statusWord s).getLsbD 11 = s.waitEnt ∧
    (statusWord s).toNat < 2 ^ 12

/-- 10 R33: the fields of ID, for every build, and its value with the default parameters. -/
def Obligations.IdShowsTheBuild : Prop :=
  (∀ b : Build,
    (idWord b).extractLsb' 0 32 = 0x44524247#32 ∧ (idWord b).extractLsb' 32 8 = 0x01#8 ∧
    (idWord b).extractLsb' 40 8 = 0x00#8 ∧ (idWord b).extractLsb' 48 5 = b.hasAlgo ∧
    (idWord b).getLsbD 53 = b.hasEntropy ∧ (idWord b).getLsbD 54 = b.hasUnit ∧ (idWord b).extractLsb' 55 9 = 0) ∧
  idWord Build.default = 0x007F000144524247#64

/-! ### The machine as a whole -/

/-- 20 R84, 60 R260: when the word accepted in PEND decodes to a command, the engine's turn is that command, with the turn taken off the agenda. -/
def Obligations.StepRunsTheDecodedCommand : Prop :=
  ∀ (s : State) (i : Instr) (rest : List Input), s.rstN = true → s.busy = true → decode s.pend = .ok i →
    (s.agenda = .clock :: rest → step s = exec i { s with agenda := rest }) ∧ (s.agenda = [] → step s = exec i s)

/-- 70 R292: `rst_n` beats everything else: it aborts the command in execution without effect, discards the held accesses and drops
`ent_req`. -/
def Obligations.ResetAbortsTheCommand : Prop :=
  ∀ (s : State) (rest : List Input), s.agenda = .rstLow :: rest →
    step s = .next { State.reset with
      build := s.build, rstN := false, agenda := rest, entropy := s.entropy, answers := s.answers }

/-- 70 R304: every command other than SEEDENT completes, with BUSY = 0, and SEEDENT is the only one that can leave the engine waiting. -/
def Obligations.EveryCommandButSeedentCompletes : Prop :=
  ∀ (s : State) (i : Instr), ∃ t, exec i s = .next t ∧ (i.mnemonic ≠ "SEEDENT" → t.busy = false ∧ t.waitEnt = false) ∧
    (i.mnemonic = "SEEDENT" → t.busy = true → t.waitEnt = true)

/-- 70 R303: while the entropy port never answers and `rst_n` stays high, a waiting SEEDENT never completes: BUSY and WAIT_ENT stay 1, the context
and the data registers stay, what is held stays held, and every access answered on the way was a read of ID or STATUS or a bus error. -/
def Obligations.StarvedSeedentWaitsForEver : Prop :=
  ∀ (s : State) (k : Nat), s.rstN = true → s.busy = true → s.waitEnt = true → waitOnlySeedent s →
    (∀ e ∈ s.entropy, e.silent) → (∀ x ∈ s.agenda, x ≠ .rstLow ∧ x ≠ .rstHigh) →
    ∃ t, core.run k s = .next t ∧ t.busy = true ∧ t.waitEnt = true ∧ SameData s t ∧ s.held <+: t.held ∧
      ∃ new, t.answers = new ++ s.answers ∧
        ∀ p ∈ new, p.2 = .error ∨ p.1.op = .read ∧ (p.1.addr = s.build.baseAddr ∨ p.1.addr = s.build.baseAddr + 0x10)

/-- 10 R38, R44, R45, R46, R47: outside reset, OUT, EQ and the state words change only by the commands named, SEED only by a host write, and
OPERAND only by a host write or an in-place rotation. -/
def Obligations.OnlyTheNamedEventsChangeARegister : Prop :=
  ∀ s t : State, step s = .next t → ¬ stepAssertsReset s →
    (t.out ≠ s.out → ∃ i, stepRuns s i ∧ i.mnemonic ∈ ["NEXT", "UDBL", "UFLT", "ROTL", "ROTR", "SRESET"]) ∧
    (t.eq ≠ s.eq → ∃ i, stepRuns s i ∧ i.mnemonic ∈ ["CMPST", "SRESET"]) ∧
    (t.ctx ≠ s.ctx → ∃ i, stepRuns s i ∧
      i.mnemonic ∈ ["SEED", "SEEDENT", "SEEDDRAW", "NEXT", "JUMP", "LJUMP", "UDBL", "UFLT", "SRESET"]) ∧
    (t.seed ≠ s.seed → stepRuns s .sreset ∨ ∃ k v, k < 4 ∧ stepStores s t (0x20 + 8 * k) v ∧ t.seed = s.seed.set k v) ∧
    (t.operand ≠ s.operand → (∃ i, stepRuns s i ∧ i.mnemonic ∈ ["ROTLI", "ROTRI", "SRESET"]) ∨
      ∃ v, stepStores s t 0x68 v ∧ t.operand = v)

/-- 10 R40: ALGO changes only to the ALGO field of a completed seeding command, or to NONE by a reset. -/
def Obligations.OnlySeedingSetsTheAlgorithm : Prop :=
  ∀ s t : State, step s = .next t → t.algo ≠ s.algo →
    (t.algo = none ∧ (stepRuns s .sreset ∨ stepAssertsReset s)) ∨
    (∃ i A, stepRuns s i ∧ algoField i = some A.code ∧ t.algo = some A ∧ t.fault = s.fault ∧ t.busy = false)

/-- 10 R33, 70 R295: no step changes the build's parameters, so ID never changes. -/
def Obligations.NoStepChangesTheBuild : Prop :=
  ∀ s t : State, step s = .next t → t.build = s.build

/-- The one stop of the machine (the model's choice, log 6; 70 R292, 93 U15): a host access while `rst_n` = 0. Nothing is ever refused. -/
def Obligations.OnlyAnAccessDuringResetStops : Prop :=
  ∀ s : State,
    ((∃ f, step s = .fault f) ↔ s.rstN = false ∧ ∃ a, s.agenda.head? = some (.host a)) ∧ (∀ r, step s ≠ .refused r)

/-- On a platform that issues no access while `rst_n` = 0 (its duty, 70 R292; the stop it avoids is the model's, log 6), no run of the machine ever
stops. -/
def Obligations.RunsOfAWellBehavedPlatformNeverStop : Prop :=
  ∀ s : State, platformKeepsReset s.rstN s.agenda = true → ∀ k, RunsFor k s

/-- The reset state is consistent and keeps the zero-state invariant (70 R291: "does not break 10_state.md rule R49"). -/
def Obligations.ResetStateIsConsistent : Prop :=
  Inv State.reset ∧ NonzeroContext State.reset

/-- Every step keeps the block's consistency: S[k] = 0 above N(ALGO) (10 R48), CAUSE is NONE exactly while FAULT is 0 (10 R39), WAIT_ENT is 0 while
BUSY is 0 (10 R41), a faulted block runs only SRESET (60 R264), a block in reset is quiet (70 R292), and the hidden state's conditions, of which its being 0 while
BUSY is 0 is the model's choice (log 5). -/
def Obligations.StepKeepsTheBlockConsistent : Prop :=
  ∀ s t : State, Inv s → step s = .next t → Inv t

/-- 10 R49: every step keeps S[0..N-1] from being all zero under an XOR/shift-based algorithm: seeding establishes it, and steps and jumps preserve
it. -/
def Obligations.StepKeepsTheContextNonzero : Prop :=
  ∀ s t : State, NonzeroContext s → step s = .next t → NonzeroContext t
end

