-- ==== Sys2Proof/Laws/Operands.lean ====
section
/-! SUPPORT. What the operand forms can do: algorithm codes and targets, words of a tuple, rotations bit by bit, bytes in their places. -/

namespace Sys2Proof.Machine

/-! ### Algorithm codes -/

theorem Algo.width_pos (A : Algo) : 0 < A.width := by cases A <;> decide

theorem Algo.width_le (A : Algo) : A.width ≤ 4 := by cases A <;> decide

theorem Algo.code_inj {A B : Algo} (h : A.code = B.code) : A = B := by cases A <;> cases B <;> simp_all [Algo.code]

/-- A target has the code it was asked for, and the build has it. -/
theorem target_some {b : Build} {a : Nat} {A : Algo} (h : target b a = some A) : A.code = a ∧ hasGen b A = true := by
  unfold target at h
  split at h
  · rename_i B hB
    split at h
    · cases h
      refine ⟨?_, ‹_›⟩
      unfold Algo.ofCode at hB
      split at hB <;> cases hB <;> rfl
    · cases h
  · cases h

/-- A usable code has its algorithm as target (60 R254). -/
theorem target_usable {b : Build} {a : Nat} (h : algoUsable b a) : ∃ A, target b a = some A := by
  obtain ⟨h1, h2, h3⟩ := h
  interval_cases a <;> simp_all [target, Algo.ofCode, hasGen, Algo.code]

/-- A code that is not usable has none. -/
theorem target_unusable {b : Build} {a : Nat} (h : ¬algoUsable b a) : target b a = none := by
  by_contra hn
  obtain ⟨A, hA⟩ := Option.ne_none_iff_exists'.mp hn
  obtain ⟨rfl, hg⟩ := target_some hA
  exact h ⟨by cases A <;> decide, by cases A <;> decide, hg⟩

theorem target_code {b : Build} {A : Algo} (h : algoUsable b A.code) : target b A.code = some A := by
  obtain ⟨B, hB⟩ := target_usable h
  rw [hB, Algo.code_inj (target_some hB).1]

/-! ### Words of a tuple -/

theorem Quad.get_set (q : Quad) (k j : Nat) (v : Word) (hk : k < 4) (hj : j < 4) :
    (q.set k v).get j = if j = k then v else q.get j := by
  interval_cases k <;> interval_cases j <;> rfl

theorem Quad.ext_get {p q : Quad} (h : ∀ k, k < 4 → p.get k = q.get k) : p = q := by
  have h0 := h 0 (by omega)
  have h1 := h 1 (by omega)
  have h2 := h 2 (by omega)
  have h3 := h 3 (by omega)
  cases p; cases q
  simp_all [Quad.get]

theorem Algo.merge_get (A : Algo) (w u : Quad) (k : Nat) (hk : k < 4) :
    (A.merge w u).get k = if k < A.width then w.get k else u.get k := by
  interval_cases k <;> cases A <;> rfl

theorem Algo.liveZero_iff (A : Algo) (w : Quad) : A.liveZero w = true ↔ ∀ k, k < A.width → w.get k = 0 := by
  simp [Algo.liveZero]

theorem Algo.liveEq_iff (A : Algo) (p q : Quad) : A.liveEq p q = true ↔ ∀ k, k < A.width → p.get k = q.get k := by
  simp [Algo.liveEq]

/-! ### Rotation -/

theorem shiftOutOfRange_iff (W s : Nat) : shiftOutOfRange W s = true ↔ s = 0 ∨ W ≤ s := by
  simp [shiftOutOfRange]

theorem getLsbD_rotl {W s : Nat} (x : BitVec W) (h1 : s < W) (i : Nat) :
    (rotl W x s).getLsbD i = (decide (i < W) && if i < s then x.getLsbD (W - s + i) else x.getLsbD (i - s)) := by
  simp only [rotl, BitVec.getLsbD_or, BitVec.getLsbD_shiftLeft, BitVec.getLsbD_ushiftRight]
  by_cases hi : i < W <;> by_cases hs : i < s
  · simp [hi, hs]
  · have : x.getLsbD (W - s + i) = false := BitVec.getLsbD_of_ge _ _ (by omega)
    simp [hi, hs, this]
  · omega
  · have : x.getLsbD (W - s + i) = false := BitVec.getLsbD_of_ge _ _ (by omega)
    simp [hi, this]

/-- Right by `s` is left by `W - s`. -/
theorem rotr_eq_rotl {W s : Nat} (x : BitVec W) (h1 : s ≤ W) : rotr W x s = rotl W x (W - s) := by
  rw [rotr, rotl, BitVec.or_comm, Nat.sub_sub_self h1]

/-! ### Entropy bytes -/

theorem toNat_laneWord (b : Byte) (j : Nat) (hj : j < 8) : (laneWord b j).toNat = b.toNat * 2 ^ (8 * j) := by
  have := b.isLt
  simp only [laneWord, BitVec.toNat_shiftLeft, BitVec.toNat_setWidth, Nat.shiftLeft_eq]
  rw [Nat.mod_eq_of_lt (a := b.toNat) (by omega), Nat.mod_eq_of_lt]
  interval_cases j <;> omega

theorem get_putByte (buf : Quad) (i k : Nat) (b : Byte) (hi : i < 32) (hk : k < 4) :
    (putByte buf i b).get k = if k = i / 8 then buf.get k ||| laneWord b (i % 8) else buf.get k := by
  rw [putByte, Quad.get_set _ _ _ _ (by omega) hk]
  split <;> simp_all

end Sys2Proof.Machine
end

