-- ==== Sys2Proof/Laws/Seeding.lean ====
section
/-! SUPPORT. What the parts of the seeding commands can do: the commit, the entropy handshake and the draws. -/

namespace Sys2Proof.Machine

theorem zeroSeeded_iff (A : Algo) (w : Quad) : zeroSeeded A w = true ↔ SeedRejected A w.get := by
  rw [zeroSeeded, Bool.and_eq_true, Algo.liveZero_iff, SeedRejected]
  cases A <;> simp [Algo.xorShift]

/-- `Commit` faults or replaces the whole context. -/
theorem commit_cases (A : Algo) (w : Quad) (s : State) :
    (zeroSeeded A w = true ∧ commit A w s = .next (takeFault .zeroSeed s)) ∨
    (zeroSeeded A w = false ∧ commit A w s = .next (complete { s with algo := some A, ctx := A.merge w Quad.zero })) := by
  cases h : zeroSeeded A w <;> simp [commit, h, raise, done]

/-- What `beginWait` leaves: only the wait, its count and its buffer are set. -/
theorem beginWait_eq (s : State) :
    beginWait s = { s with
      waitEnt := true
      ecnt := if s.waitEnt then s.ecnt else 0
      ebuf := if s.waitEnt then s.ebuf else Quad.zero } := by
  unfold beginWait
  split
  · rename_i h
    cases s; simp_all
  · rfl

/-- The bytes of consecutive edges, put in order from byte number `cnt`. -/
def putBytes (buf : Quad) (cnt : Nat) : List Byte → Quad
  | [] => buf
  | b :: bs => putBytes (putByte buf cnt b) (cnt + 1) bs

/-- Bytes on consecutive edges are all taken before the handshake looks at what follows. -/
theorem gather_byteEdges (need : Nat) (bytes : List Byte) (tail : List EntSample) (cnt : Nat) (buf : Quad)
    (h : cnt + bytes.length ≤ need) :
    gather need (byteEdges bytes ++ tail) cnt buf = gather need tail (cnt + bytes.length) (putBytes buf cnt bytes) := by
  induction bytes generalizing cnt buf with
  | nil => rfl
  | cons b bs ih =>
    simp only [byteEdges, List.map_cons, List.cons_append, List.length_cons] at *
    rw [gather, if_neg (by omega)]
    simp only [Bool.false_eq_true, if_false, if_true]
    rw [ih _ _ (by omega), putBytes, Nat.add_right_comm, Nat.add_assoc]

/-- The handshake ends with all bytes, with a failure, or waiting with fewer bytes than it needs. -/
theorem gather_waiting {need : Nat} {l rest : List EntSample} {cnt cnt' : Nat} {buf buf' : Quad}
    (h : gather need l cnt buf = .waiting cnt' buf' rest) : cnt' < need := by
  induction l generalizing cnt buf with
  | nil =>
    rw [gather] at h
    split at h <;> cases h
    omega
  | cons e l ih =>
    rw [gather] at h
    split at h
    · cases h
    · split at h
      · cases h
      · split at h
        · exact ih h
        · cases h
          omega

/-- Edges on which the port does not answer give nothing: the engine is where it was, and fewer such edges are left. -/
theorem gather_silent {need cnt : Nat} (l : List EntSample) (buf : Quad) (hl : ∀ e ∈ l, e.silent) (h : cnt < need) :
    ∃ rest, gather need l cnt buf = .waiting cnt buf rest ∧ ∀ e ∈ rest, e.silent := by
  cases l with
  | nil => exact ⟨[], by rw [gather, if_neg (by omega)], by simp⟩
  | cons e rest =>
    obtain ⟨h1, h2⟩ := hl e (by simp)
    exact ⟨rest, by simp [gather, h1, h2, Nat.not_le.mpr h], fun x hx => hl x (by simp [hx])⟩

/-- Word j of a drawn seed is the output of step j - k (R156). -/
theorem get_drawWords (B : Algo) (n k : Nat) (w t : Quad) (j : Nat) (hj : j < 4) (hn : k + n ≤ 4) :
    (drawWords B n k w t).get j = if k ≤ j ∧ j < k + n then (genStep B ((advance B)^[j - k] t)).1 else w.get j := by
  induction n generalizing k w t with
  | zero => simp [drawWords]
  | succ n ih =>
    rw [drawWords, ih _ _ _ (by omega), Quad.get_set _ _ _ _ (by omega) hj]
    by_cases h1 : j = k
    · subst h1; simp
    · simp only [if_neg h1]
      by_cases h2 : k + 1 ≤ j ∧ j < k + 1 + n
      · rw [if_pos h2, if_pos (by omega), show j - k = (j - (k + 1)) + 1 by omega, Function.iterate_succ_apply]
      · rw [if_neg h2, if_neg (by omega)]

end Sys2Proof.Machine
end

