-- ==== Sys2Proof/Laws/State.lean ====
section
/-! SUPPORT. What each named update of State leaves in each field: one lemma per field per update, so that no later proof unfolds a record
update. -/

namespace Sys2Proof.Machine

/-! ### complete -/

@[simp] theorem complete_build (s : State) : (complete s).build = s.build := rfl
@[simp] theorem complete_algo (s : State) : (complete s).algo = s.algo := rfl
@[simp] theorem complete_ctx (s : State) : (complete s).ctx = s.ctx := rfl
@[simp] theorem complete_seed (s : State) : (complete s).seed = s.seed := rfl
@[simp] theorem complete_operand (s : State) : (complete s).operand = s.operand := rfl
@[simp] theorem complete_out (s : State) : (complete s).out = s.out := rfl
@[simp] theorem complete_eq (s : State) : (complete s).eq = s.eq := rfl
@[simp] theorem complete_fault (s : State) : (complete s).fault = s.fault := rfl
@[simp] theorem complete_cause (s : State) : (complete s).cause = s.cause := rfl
@[simp] theorem complete_faultcmd (s : State) : (complete s).faultcmd = s.faultcmd := rfl
@[simp] theorem complete_busy (s : State) : (complete s).busy = false := rfl
@[simp] theorem complete_waitEnt (s : State) : (complete s).waitEnt = false := rfl
@[simp] theorem complete_pend (s : State) : (complete s).pend = 0 := rfl
@[simp] theorem complete_ebuf (s : State) : (complete s).ebuf = Quad.zero := rfl
@[simp] theorem complete_ecnt (s : State) : (complete s).ecnt = 0 := rfl
@[simp] theorem complete_rstN (s : State) : (complete s).rstN = s.rstN := rfl
@[simp] theorem complete_held (s : State) : (complete s).held = s.held := rfl
@[simp] theorem complete_agenda (s : State) : (complete s).agenda = s.agenda := rfl
@[simp] theorem complete_entropy (s : State) : (complete s).entropy = s.entropy := rfl
@[simp] theorem complete_answers (s : State) : (complete s).answers = s.answers := rfl

/-! ### takeFault -/

@[simp] theorem takeFault_build (k : Cause) (s : State) : (takeFault k s).build = s.build := rfl
@[simp] theorem takeFault_algo (k : Cause) (s : State) : (takeFault k s).algo = s.algo := rfl
@[simp] theorem takeFault_ctx (k : Cause) (s : State) : (takeFault k s).ctx = s.ctx := rfl
@[simp] theorem takeFault_seed (k : Cause) (s : State) : (takeFault k s).seed = s.seed := rfl
@[simp] theorem takeFault_operand (k : Cause) (s : State) : (takeFault k s).operand = s.operand := rfl
@[simp] theorem takeFault_out (k : Cause) (s : State) : (takeFault k s).out = s.out := rfl
@[simp] theorem takeFault_eq (k : Cause) (s : State) : (takeFault k s).eq = s.eq := rfl
@[simp] theorem takeFault_fault (k : Cause) (s : State) : (takeFault k s).fault = true := rfl
@[simp] theorem takeFault_cause (k : Cause) (s : State) : (takeFault k s).cause = k := rfl
@[simp] theorem takeFault_faultcmd (k : Cause) (s : State) : (takeFault k s).faultcmd = s.pend := rfl
@[simp] theorem takeFault_busy (k : Cause) (s : State) : (takeFault k s).busy = false := rfl
@[simp] theorem takeFault_waitEnt (k : Cause) (s : State) : (takeFault k s).waitEnt = false := rfl
@[simp] theorem takeFault_pend (k : Cause) (s : State) : (takeFault k s).pend = 0 := rfl
@[simp] theorem takeFault_ebuf (k : Cause) (s : State) : (takeFault k s).ebuf = Quad.zero := rfl
@[simp] theorem takeFault_ecnt (k : Cause) (s : State) : (takeFault k s).ecnt = 0 := rfl
@[simp] theorem takeFault_rstN (k : Cause) (s : State) : (takeFault k s).rstN = s.rstN := rfl
@[simp] theorem takeFault_held (k : Cause) (s : State) : (takeFault k s).held = s.held := rfl
@[simp] theorem takeFault_agenda (k : Cause) (s : State) : (takeFault k s).agenda = s.agenda := rfl
@[simp] theorem takeFault_entropy (k : Cause) (s : State) : (takeFault k s).entropy = s.entropy := rfl
@[simp] theorem takeFault_answers (k : Cause) (s : State) : (takeFault k s).answers = s.answers := rfl

/-! ### softReset -/

@[simp] theorem softReset_build (s : State) : (softReset s).build = s.build := rfl
@[simp] theorem softReset_algo (s : State) : (softReset s).algo = none := rfl
@[simp] theorem softReset_ctx (s : State) : (softReset s).ctx = Quad.zero := rfl
@[simp] theorem softReset_seed (s : State) : (softReset s).seed = Quad.zero := rfl
@[simp] theorem softReset_operand (s : State) : (softReset s).operand = 0 := rfl
@[simp] theorem softReset_out (s : State) : (softReset s).out = 0 := rfl
@[simp] theorem softReset_eq (s : State) : (softReset s).eq = false := rfl
@[simp] theorem softReset_fault (s : State) : (softReset s).fault = false := rfl
@[simp] theorem softReset_cause (s : State) : (softReset s).cause = .noFault := rfl
@[simp] theorem softReset_faultcmd (s : State) : (softReset s).faultcmd = 0 := rfl
@[simp] theorem softReset_busy (s : State) : (softReset s).busy = false := rfl
@[simp] theorem softReset_waitEnt (s : State) : (softReset s).waitEnt = false := rfl
@[simp] theorem softReset_pend (s : State) : (softReset s).pend = 0 := rfl
@[simp] theorem softReset_ebuf (s : State) : (softReset s).ebuf = Quad.zero := rfl
@[simp] theorem softReset_ecnt (s : State) : (softReset s).ecnt = 0 := rfl
@[simp] theorem softReset_rstN (s : State) : (softReset s).rstN = s.rstN := rfl
@[simp] theorem softReset_held (s : State) : (softReset s).held = s.held := rfl
@[simp] theorem softReset_agenda (s : State) : (softReset s).agenda = s.agenda := rfl
@[simp] theorem softReset_entropy (s : State) : (softReset s).entropy = s.entropy := rfl
@[simp] theorem softReset_answers (s : State) : (softReset s).answers = s.answers := rfl

/-! ### assertReset -/

@[simp] theorem assertReset_build (s : State) : (assertReset s).build = s.build := rfl
@[simp] theorem assertReset_algo (s : State) : (assertReset s).algo = none := rfl
@[simp] theorem assertReset_ctx (s : State) : (assertReset s).ctx = Quad.zero := rfl
@[simp] theorem assertReset_seed (s : State) : (assertReset s).seed = Quad.zero := rfl
@[simp] theorem assertReset_operand (s : State) : (assertReset s).operand = 0 := rfl
@[simp] theorem assertReset_out (s : State) : (assertReset s).out = 0 := rfl
@[simp] theorem assertReset_eq (s : State) : (assertReset s).eq = false := rfl
@[simp] theorem assertReset_fault (s : State) : (assertReset s).fault = false := rfl
@[simp] theorem assertReset_cause (s : State) : (assertReset s).cause = .noFault := rfl
@[simp] theorem assertReset_faultcmd (s : State) : (assertReset s).faultcmd = 0 := rfl
@[simp] theorem assertReset_busy (s : State) : (assertReset s).busy = false := rfl
@[simp] theorem assertReset_waitEnt (s : State) : (assertReset s).waitEnt = false := rfl
@[simp] theorem assertReset_pend (s : State) : (assertReset s).pend = 0 := rfl
@[simp] theorem assertReset_ebuf (s : State) : (assertReset s).ebuf = Quad.zero := rfl
@[simp] theorem assertReset_ecnt (s : State) : (assertReset s).ecnt = 0 := rfl
@[simp] theorem assertReset_rstN (s : State) : (assertReset s).rstN = false := rfl
@[simp] theorem assertReset_held (s : State) : (assertReset s).held = [] := rfl
@[simp] theorem assertReset_agenda (s : State) : (assertReset s).agenda = s.agenda := rfl
@[simp] theorem assertReset_entropy (s : State) : (assertReset s).entropy = s.entropy := rfl
@[simp] theorem assertReset_answers (s : State) : (assertReset s).answers = s.answers := rfl

/-! ### answer -/

@[simp] theorem answer_build (a : HostAccess) (r : Response) (s : State) : (answer a r s).build = s.build := rfl
@[simp] theorem answer_algo (a : HostAccess) (r : Response) (s : State) : (answer a r s).algo = s.algo := rfl
@[simp] theorem answer_ctx (a : HostAccess) (r : Response) (s : State) : (answer a r s).ctx = s.ctx := rfl
@[simp] theorem answer_seed (a : HostAccess) (r : Response) (s : State) : (answer a r s).seed = s.seed := rfl
@[simp] theorem answer_operand (a : HostAccess) (r : Response) (s : State) : (answer a r s).operand = s.operand := rfl
@[simp] theorem answer_out (a : HostAccess) (r : Response) (s : State) : (answer a r s).out = s.out := rfl
@[simp] theorem answer_eq (a : HostAccess) (r : Response) (s : State) : (answer a r s).eq = s.eq := rfl
@[simp] theorem answer_fault (a : HostAccess) (r : Response) (s : State) : (answer a r s).fault = s.fault := rfl
@[simp] theorem answer_cause (a : HostAccess) (r : Response) (s : State) : (answer a r s).cause = s.cause := rfl
@[simp] theorem answer_faultcmd (a : HostAccess) (r : Response) (s : State) : (answer a r s).faultcmd = s.faultcmd := rfl
@[simp] theorem answer_busy (a : HostAccess) (r : Response) (s : State) : (answer a r s).busy = s.busy := rfl
@[simp] theorem answer_waitEnt (a : HostAccess) (r : Response) (s : State) : (answer a r s).waitEnt = s.waitEnt := rfl
@[simp] theorem answer_pend (a : HostAccess) (r : Response) (s : State) : (answer a r s).pend = s.pend := rfl
@[simp] theorem answer_ebuf (a : HostAccess) (r : Response) (s : State) : (answer a r s).ebuf = s.ebuf := rfl
@[simp] theorem answer_ecnt (a : HostAccess) (r : Response) (s : State) : (answer a r s).ecnt = s.ecnt := rfl
@[simp] theorem answer_rstN (a : HostAccess) (r : Response) (s : State) : (answer a r s).rstN = s.rstN := rfl
@[simp] theorem answer_held (a : HostAccess) (r : Response) (s : State) : (answer a r s).held = s.held := rfl
@[simp] theorem answer_agenda (a : HostAccess) (r : Response) (s : State) : (answer a r s).agenda = s.agenda := rfl
@[simp] theorem answer_entropy (a : HostAccess) (r : Response) (s : State) : (answer a r s).entropy = s.entropy := rfl
@[simp] theorem answer_answers (a : HostAccess) (r : Response) (s : State) : (answer a r s).answers = (a, r) :: s.answers := rfl

/-! ### hold -/

@[simp] theorem hold_build (a : HostAccess) (s : State) : (hold a s).build = s.build := rfl
@[simp] theorem hold_algo (a : HostAccess) (s : State) : (hold a s).algo = s.algo := rfl
@[simp] theorem hold_ctx (a : HostAccess) (s : State) : (hold a s).ctx = s.ctx := rfl
@[simp] theorem hold_seed (a : HostAccess) (s : State) : (hold a s).seed = s.seed := rfl
@[simp] theorem hold_operand (a : HostAccess) (s : State) : (hold a s).operand = s.operand := rfl
@[simp] theorem hold_out (a : HostAccess) (s : State) : (hold a s).out = s.out := rfl
@[simp] theorem hold_eq (a : HostAccess) (s : State) : (hold a s).eq = s.eq := rfl
@[simp] theorem hold_fault (a : HostAccess) (s : State) : (hold a s).fault = s.fault := rfl
@[simp] theorem hold_cause (a : HostAccess) (s : State) : (hold a s).cause = s.cause := rfl
@[simp] theorem hold_faultcmd (a : HostAccess) (s : State) : (hold a s).faultcmd = s.faultcmd := rfl
@[simp] theorem hold_busy (a : HostAccess) (s : State) : (hold a s).busy = s.busy := rfl
@[simp] theorem hold_waitEnt (a : HostAccess) (s : State) : (hold a s).waitEnt = s.waitEnt := rfl
@[simp] theorem hold_pend (a : HostAccess) (s : State) : (hold a s).pend = s.pend := rfl
@[simp] theorem hold_ebuf (a : HostAccess) (s : State) : (hold a s).ebuf = s.ebuf := rfl
@[simp] theorem hold_ecnt (a : HostAccess) (s : State) : (hold a s).ecnt = s.ecnt := rfl
@[simp] theorem hold_rstN (a : HostAccess) (s : State) : (hold a s).rstN = s.rstN := rfl
@[simp] theorem hold_held (a : HostAccess) (s : State) : (hold a s).held = s.held ++ [a] := rfl
@[simp] theorem hold_agenda (a : HostAccess) (s : State) : (hold a s).agenda = s.agenda := rfl
@[simp] theorem hold_entropy (a : HostAccess) (s : State) : (hold a s).entropy = s.entropy := rfl
@[simp] theorem hold_answers (a : HostAccess) (s : State) : (hold a s).answers = s.answers := rfl

/-! ### accept -/

@[simp] theorem accept_build (v : Word) (s : State) : (accept v s).build = s.build := rfl
@[simp] theorem accept_algo (v : Word) (s : State) : (accept v s).algo = s.algo := rfl
@[simp] theorem accept_ctx (v : Word) (s : State) : (accept v s).ctx = s.ctx := rfl
@[simp] theorem accept_seed (v : Word) (s : State) : (accept v s).seed = s.seed := rfl
@[simp] theorem accept_operand (v : Word) (s : State) : (accept v s).operand = s.operand := rfl
@[simp] theorem accept_out (v : Word) (s : State) : (accept v s).out = s.out := rfl
@[simp] theorem accept_eq (v : Word) (s : State) : (accept v s).eq = s.eq := rfl
@[simp] theorem accept_fault (v : Word) (s : State) : (accept v s).fault = s.fault := rfl
@[simp] theorem accept_cause (v : Word) (s : State) : (accept v s).cause = s.cause := rfl
@[simp] theorem accept_faultcmd (v : Word) (s : State) : (accept v s).faultcmd = s.faultcmd := rfl
@[simp] theorem accept_busy (v : Word) (s : State) : (accept v s).busy = true := rfl
@[simp] theorem accept_waitEnt (v : Word) (s : State) : (accept v s).waitEnt = s.waitEnt := rfl
@[simp] theorem accept_pend (v : Word) (s : State) : (accept v s).pend = v := rfl
@[simp] theorem accept_ebuf (v : Word) (s : State) : (accept v s).ebuf = s.ebuf := rfl
@[simp] theorem accept_ecnt (v : Word) (s : State) : (accept v s).ecnt = s.ecnt := rfl
@[simp] theorem accept_rstN (v : Word) (s : State) : (accept v s).rstN = s.rstN := rfl
@[simp] theorem accept_held (v : Word) (s : State) : (accept v s).held = s.held := rfl
@[simp] theorem accept_agenda (v : Word) (s : State) : (accept v s).agenda = s.agenda := rfl
@[simp] theorem accept_entropy (v : Word) (s : State) : (accept v s).entropy = s.entropy := rfl
@[simp] theorem accept_answers (v : Word) (s : State) : (accept v s).answers = s.answers := rfl

/-! ### drawTo -/

@[simp] theorem drawTo_build (f : Word → Word) (A : Algo) (s : State) : (drawTo f A s).build = s.build := rfl
@[simp] theorem drawTo_algo (f : Word → Word) (A : Algo) (s : State) : (drawTo f A s).algo = s.algo := rfl
@[simp] theorem drawTo_ctx (f : Word → Word) (A : Algo) (s : State) : (drawTo f A s).ctx = advance A s.ctx := rfl
@[simp] theorem drawTo_seed (f : Word → Word) (A : Algo) (s : State) : (drawTo f A s).seed = s.seed := rfl
@[simp] theorem drawTo_operand (f : Word → Word) (A : Algo) (s : State) : (drawTo f A s).operand = s.operand := rfl
@[simp] theorem drawTo_out (f : Word → Word) (A : Algo) (s : State) : (drawTo f A s).out = f (genStep A s.ctx).1 := rfl
@[simp] theorem drawTo_eq (f : Word → Word) (A : Algo) (s : State) : (drawTo f A s).eq = s.eq := rfl
@[simp] theorem drawTo_fault (f : Word → Word) (A : Algo) (s : State) : (drawTo f A s).fault = s.fault := rfl
@[simp] theorem drawTo_cause (f : Word → Word) (A : Algo) (s : State) : (drawTo f A s).cause = s.cause := rfl
@[simp] theorem drawTo_faultcmd (f : Word → Word) (A : Algo) (s : State) : (drawTo f A s).faultcmd = s.faultcmd := rfl
@[simp] theorem drawTo_busy (f : Word → Word) (A : Algo) (s : State) : (drawTo f A s).busy = s.busy := rfl
@[simp] theorem drawTo_waitEnt (f : Word → Word) (A : Algo) (s : State) : (drawTo f A s).waitEnt = s.waitEnt := rfl
@[simp] theorem drawTo_pend (f : Word → Word) (A : Algo) (s : State) : (drawTo f A s).pend = s.pend := rfl
@[simp] theorem drawTo_ebuf (f : Word → Word) (A : Algo) (s : State) : (drawTo f A s).ebuf = s.ebuf := rfl
@[simp] theorem drawTo_ecnt (f : Word → Word) (A : Algo) (s : State) : (drawTo f A s).ecnt = s.ecnt := rfl
@[simp] theorem drawTo_rstN (f : Word → Word) (A : Algo) (s : State) : (drawTo f A s).rstN = s.rstN := rfl
@[simp] theorem drawTo_held (f : Word → Word) (A : Algo) (s : State) : (drawTo f A s).held = s.held := rfl
@[simp] theorem drawTo_agenda (f : Word → Word) (A : Algo) (s : State) : (drawTo f A s).agenda = s.agenda := rfl
@[simp] theorem drawTo_entropy (f : Word → Word) (A : Algo) (s : State) : (drawTo f A s).entropy = s.entropy := rfl
@[simp] theorem drawTo_answers (f : Word → Word) (A : Algo) (s : State) : (drawTo f A s).answers = s.answers := rfl

end Sys2Proof.Machine
end

