-- ==== Sys2Proof/Laws/Commands.lean ====
section
/-! SUPPORT. Everything a command can do: one lemma, cited instead of unfolding `exec`. -/

namespace Sys2Proof.Machine

/-- What the next state of a command can be: a fault was taken, the command completed with effects on the context, OPERAND, OUT, EQ and the
entropy port alone, the block was reset, or SEEDENT waits for bytes it has not got. -/
def CommandEnds (i : Instr) (s t : State) : Prop :=
  (∃ k e, k ≠ .noFault ∧ t = takeFault k { s with entropy := e }) ∨
  (∃ A c p o q e, t = complete { s with algo := A, ctx := c, operand := p, out := o, eq := q, entropy := e }) ∨
  (i = .sreset ∧ t = softReset s) ∨
  (∃ a A n b e, i = .seedent a ∧ s.build.hasEntropy = true ∧ target s.build a = some A ∧ n < 8 * A.width ∧
    t = { s with waitEnt := true, ecnt := n, ebuf := b, entropy := e })

theorem raise_ends (i : Instr) (s : State) (k : Cause) (h : k ≠ .noFault) :
    ∃ t, raise k s = .next t ∧ CommandEnds i s t := ⟨_, rfl, .inl ⟨k, s.entropy, h, rfl⟩⟩

theorem done_ends (i : Instr) (s u : State) (A : Option Algo) (c : Quad) (p o : Word) (q : Bool) (e : List EntSample)
    (h : u = { s with algo := A, ctx := c, operand := p, out := o, eq := q, entropy := e }) :
    ∃ t, done u = .next t ∧ CommandEnds i s t := ⟨_, rfl, .inr (.inl ⟨A, c, p, o, q, e, by rw [h]⟩)⟩

theorem commit_ends (i : Instr) (s : State) (A : Algo) (w : Quad) :
    ∃ t, commit A w s = .next t ∧ CommandEnds i s t := by
  unfold commit
  split
  · exact raise_ends _ _ _ (by decide)
  · exact done_ends i s _ (some A) (A.merge w Quad.zero) s.operand s.out s.eq s.entropy rfl

theorem jumpBy_ends (i : Instr) (s : State) (K : Algo → Option (List Word)) :
    ∃ t, jumpBy K s = .next t ∧ CommandEnds i s t := by
  unfold jumpBy
  split
  · exact raise_ends _ _ _ (by decide)
  · split
    · exact raise_ends _ _ _ (by decide)
    · exact done_ends i s _ s.algo _ s.operand s.out s.eq s.entropy rfl

theorem execSeedent_ends (a : Nat) (s : State) : ∃ t, execSeedent a s = .next t ∧ CommandEnds (.seedent a) s t := by
  unfold execSeedent
  split
  · rename_i hE
    split
    · exact raise_ends _ _ _ (by decide)
    · rename_i A hA
      unfold seedFromEntropy
      rw [beginWait_eq]
      split
      · rename_i buf rest _
        rw [commit]
        split
        · exact ⟨_, rfl, .inl ⟨.zeroSeed, rest, by decide, rfl⟩⟩
        · exact ⟨_, rfl, .inr (.inl ⟨some A, A.merge buf Quad.zero, s.operand, s.out, s.eq, rest, rfl⟩)⟩
      · rename_i rest _
        exact ⟨_, rfl, .inl ⟨.entropyFail, rest, by decide, rfl⟩⟩
      · rename_i n b e h
        exact ⟨_, rfl, .inr (.inr (.inr ⟨a, A, n, b, e, rfl, hE, hA, gather_waiting h, rfl⟩))⟩
  · exact raise_ends _ _ _ (by decide)

/-- Every command answers a next state, and it is one of `CommandEnds`. -/
theorem exec_ends (i : Instr) (s : State) : ∃ t, exec i s = .next t ∧ CommandEnds i s t := by
  cases i <;> simp only [exec]
  case nop => exact done_ends .nop s s s.algo s.ctx s.operand s.out s.eq s.entropy rfl
  case seed a =>
    unfold execSeed
    split
    · exact raise_ends _ _ _ (by decide)
    · exact commit_ends _ _ _ _
  case seedent a => exact execSeedent_ends a s
  case seeddraw a =>
    unfold execSeeddraw
    split
    · exact raise_ends _ _ _ (by decide)
    · split
      · exact raise_ends _ _ _ (by decide)
      · exact commit_ends _ _ _ _
  case next =>
    unfold execNext
    split
    · exact raise_ends _ _ _ (by decide)
    · exact done_ends _ s _ s.algo _ s.operand _ s.eq s.entropy rfl
  case jump => exact jumpBy_ends _ _ _
  case ljump => exact jumpBy_ends _ _ _
  case udbl =>
    unfold execUdbl
    split
    · split
      · exact raise_ends _ _ _ (by decide)
      · exact done_ends _ s _ s.algo _ s.operand _ s.eq s.entropy rfl
    · exact raise_ends _ _ _ (by decide)
  case uflt =>
    unfold execUflt
    split
    · split
      · exact raise_ends _ _ _ (by decide)
      · exact done_ends _ s _ s.algo _ s.operand _ s.eq s.entropy rfl
    · exact raise_ends _ _ _ (by decide)
  case cmpst =>
    unfold execCmpst
    split
    · exact raise_ends _ _ _ (by decide)
    · exact done_ends _ s _ s.algo s.ctx s.operand s.out _ s.entropy rfl
  case rotl w n =>
    unfold execRotl
    split
    · exact raise_ends _ _ _ (by decide)
    · exact done_ends _ s _ s.algo s.ctx s.operand _ s.eq s.entropy rfl
  case rotr w n =>
    unfold execRotr
    split
    · exact raise_ends _ _ _ (by decide)
    · exact done_ends _ s _ s.algo s.ctx s.operand _ s.eq s.entropy rfl
  case rotli w n =>
    unfold execRotli
    split
    · exact raise_ends _ _ _ (by decide)
    · exact done_ends _ s _ s.algo s.ctx _ s.out s.eq s.entropy rfl
  case rotri w n =>
    unfold execRotri
    split
    · exact raise_ends _ _ _ (by decide)
    · exact done_ends _ s _ s.algo s.ctx _ s.out s.eq s.entropy rfl
  case sreset => exact ⟨_, rfl, .inr (.inr (.inl ⟨rfl, rfl⟩))⟩

/-! ### The held accesses are no command's concern -/

/-- An outcome with the held accesses of its next state replaced. -/
def withHeld (h : List HostAccess) : Outcome → Outcome
  | .next t => .next { t with held := h }
  | .fault f => .fault f
  | .refused r => .refused r

theorem commit_held (A : Algo) (w : Quad) (s : State) (h : List HostAccess) :
    commit A w { s with held := h } = withHeld h (commit A w s) := by
  unfold commit
  split <;> rfl

theorem seedFromEntropy_held (A : Algo) (s : State) (h : List HostAccess) :
    seedFromEntropy A { s with held := h } = withHeld h (seedFromEntropy A s) := by
  unfold seedFromEntropy
  dsimp only
  split
  · rename_i buf rest _
    exact commit_held A buf { s with entropy := rest } h
  · rfl
  · rfl

/-- A command does the same whatever is held behind it. -/
theorem exec_held (i : Instr) (s : State) (h : List HostAccess) : exec i { s with held := h } = withHeld h (exec i s) := by
  cases i <;> simp only [exec]
  case nop => rfl
  case seed a =>
    unfold execSeed
    dsimp only
    split
    · rfl
    · exact commit_held _ _ s h
  case seedent a =>
    unfold execSeedent
    dsimp only
    split
    · split
      · rfl
      · rw [beginWait_eq, beginWait_eq]
        rename_i A _
        exact seedFromEntropy_held A { s with
          waitEnt := true
          ecnt := if s.waitEnt then s.ecnt else 0
          ebuf := if s.waitEnt then s.ebuf else Quad.zero } h
    · rfl
  case seeddraw a =>
    unfold execSeeddraw
    dsimp only
    split
    · rfl
    · split
      · rfl
      · exact commit_held _ _ s h
  case next =>
    unfold execNext
    dsimp only
    split <;> rfl
  case jump =>
    unfold execJump jumpBy
    dsimp only
    split
    · rfl
    · split <;> rfl
  case ljump =>
    unfold execLjump jumpBy
    dsimp only
    split
    · rfl
    · split <;> rfl
  case udbl =>
    unfold execUdbl
    dsimp only
    split
    · split <;> rfl
    · rfl
  case uflt =>
    unfold execUflt
    dsimp only
    split
    · split <;> rfl
    · rfl
  case cmpst =>
    unfold execCmpst
    dsimp only
    split <;> rfl
  case rotl w n =>
    unfold execRotl
    split <;> rfl
  case rotr w n =>
    unfold execRotr
    split <;> rfl
  case rotli w n =>
    unfold execRotli
    split <;> rfl
  case rotri w n =>
    unfold execRotri
    split <;> rfl
  case sreset => rfl

end Sys2Proof.Machine
end

