-- ==== Sys2Proof/Laws/Jump.lean ====
section
/-! SUPPORT. What the scan of a jump constant computes (45_jump.md R221). -/

namespace Sys2Proof.Machine

/-- The scan of `n` bits from bit `b`: the accumulator takes the tuples at which a bit is set, and the tuple takes `n` steps. -/
theorem scanBits_eq (A : Algo) (k : Word) (n b : Nat) (acc t : Quad) :
    scanBits A k n b (acc, t) =
      ((List.range n).foldl (fun a j => if k.getLsbD (b + j) then a.xor ((advance A)^[j] t) else a) acc, (advance A)^[n] t) := by
  induction n generalizing b acc t with
  | zero => rfl
  | succ n ih =>
    rw [scanBits, scanBit]
    simp only []
    rw [ih, List.range_succ_eq_map, List.foldl_cons, List.foldl_map]
    simp only [Function.iterate_succ, Function.comp, Nat.add_zero, Function.iterate_zero, id]
    congr 3
    funext a j
    rw [show b + 1 + j = b + j.succ by omega]

/-- The scan of a whole constant list is one scan over its row of bits. -/
theorem scanWords_fst (A : Algo) (K : List Word) (acc t : Quad) :
    (scanWords A K (acc, t)).1 =
      (List.range (64 * K.length)).foldl (fun a j => if constBit K j then a.xor ((advance A)^[j] t) else a) acc := by
  induction K generalizing acc t with
  | nil => rfl
  | cons k ks ih =>
    rw [scanWords, scanBits_eq, ih, show 64 * (k :: ks).length = 64 + 64 * ks.length by simp; omega, List.range_add,
      List.foldl_append, List.foldl_map]
    have first : (List.range 64).foldl (fun a j => if constBit (k :: ks) j then a.xor ((advance A)^[j] t) else a) acc =
        (List.range 64).foldl (fun a j => if k.getLsbD (0 + j) then a.xor ((advance A)^[j] t) else a) acc := by
      apply List.foldl_ext
      intro a j hj
      have : j < 64 := by simpa using hj
      simp only [constBit, Nat.div_eq_of_lt this, Nat.mod_eq_of_lt this, List.getD_cons_zero, Nat.zero_add]
    rw [first]
    congr 1
    funext a j
    simp only [constBit, show (64 + j) / 64 = j / 64 + 1 by omega, show (64 + j) % 64 = j % 64 by omega, List.getD_cons_succ]
    rw [show 64 + j = j + 64 by omega, Function.iterate_add_apply]
    rfl

end Sys2Proof.Machine
end

