-- ==== Sys2Proof/Laws/Linear.lean ====
section
/-! SUPPORT. The XOR/shift-based updates as linear maps over GF(2) (43_xoroshiro128.md R197; 44_xoshiro256.md R214; 45_jump.md R222), and
polynomials in the update, given by the bits of a number. -/

namespace Sys2Proof.Machine

/-! ### Exclusive OR of words and tuples -/

theorem xor_cancel_left (a b : Word) : a ^^^ (a ^^^ b) = b := by
  rw [← BitVec.xor_assoc, BitVec.xor_self, BitVec.zero_xor]

theorem rotl_xor (x y : Word) (n : Nat) : rotl 64 (x ^^^ y) n = rotl 64 x n ^^^ rotl 64 y n := by
  apply BitVec.eq_of_getLsbD_eq
  intro i hi
  simp only [rotl, BitVec.getLsbD_or, BitVec.getLsbD_shiftLeft, BitVec.getLsbD_ushiftRight, BitVec.getLsbD_xor, hi,
    decide_true, Bool.true_and]
  by_cases hc : i < n
  · simp [hc]
  · have h1 := BitVec.getLsbD_of_ge x (64 - n + i) (by omega)
    have h2 := BitVec.getLsbD_of_ge y (64 - n + i) (by omega)
    simp [hc, h1, h2]

theorem Quad.xor_assoc (p q r : Quad) : (p.xor q).xor r = p.xor (q.xor r) := by
  simp [Quad.xor, BitVec.xor_assoc]

theorem Quad.xor_comm (p q : Quad) : p.xor q = q.xor p := by
  simp [Quad.xor, BitVec.xor_comm]

@[simp] theorem Quad.xor_self (q : Quad) : q.xor q = Quad.zero := by
  simp [Quad.xor, Quad.zero]

@[simp] theorem Quad.xor_zero (q : Quad) : q.xor Quad.zero = q := by
  simp [Quad.xor, Quad.zero]

@[simp] theorem Quad.zero_xor (q : Quad) : Quad.zero.xor q = q := by
  simp [Quad.xor, Quad.zero]

/-! ### The update -/

theorem xoroCore_xor (a b c : Nat) (s0 s1 t0 t1 : Word) :
    xoroCore a b c (s0 ^^^ t0) (s1 ^^^ t1) =
      ((xoroCore a b c s0 s1).1 ^^^ (xoroCore a b c t0 t1).1, (xoroCore a b c s0 s1).2 ^^^ (xoroCore a b c t0 t1).2) := by
  simp only [xoroCore, rotl_xor, BitVec.shiftLeft_xor_distrib]
  congr 1 <;> ac_rfl

/-- The Xoshiro256++ update with every right-hand side in the words before it (44 R212). -/
theorem advance_xoshiro256pp (q : Quad) :
    advance .xoshiro256pp q =
      ⟨q.w0 ^^^ q.w3 ^^^ q.w1, q.w1 ^^^ q.w2 ^^^ q.w0, q.w2 ^^^ q.w0 ^^^ q.w1 <<< 17, rotl 64 (q.w3 ^^^ q.w1) 45⟩ := by
  simp only [advance, genStep, stepXoshiro256PP]
  congr 1 <;> ac_rfl

/-- The update of an XOR/shift-based algorithm is additive. -/
theorem advance_xor {A : Algo} (h : A.xorShift = true) (p q : Quad) :
    advance A (p.xor q) = (advance A p).xor (advance A q) := by
  cases A
  case splitmix64 => cases h
  case xoshiro256pp =>
    simp only [advance_xoshiro256pp, Quad.xor, rotl_xor, BitVec.shiftLeft_xor_distrib, Quad.mk.injEq]
    generalize p.w1 <<< 17 = a
    generalize q.w1 <<< 17 = b
    refine ⟨?_, ?_, ?_, ?_⟩ <;> ac_rfl
  all_goals
    simp only [advance, genStep, withPair, stepXoroshiro128P, stepXoroshiro128PP, stepXoroshiro128PDrbg, Quad.xor, xoroCore_xor]

theorem advance_zero {A : Algo} (h : A.xorShift = true) : advance A Quad.zero = Quad.zero := by
  cases A <;> first | exact absurd h (by decide) | decide

theorem iterate_advance_xor {A : Algo} (h : A.xorShift = true) (n : Nat) (p q : Quad) :
    (advance A)^[n] (p.xor q) = ((advance A)^[n] p).xor ((advance A)^[n] q) := by
  induction n generalizing p q with
  | zero => rfl
  | succ n ih => rw [Function.iterate_succ_apply, advance_xor h, ih]; rfl

/-! ### Polynomials in the update -/

/-- The polynomial of degree below `n` whose coefficients are the bits of `p`, applied to `q`. -/
def evalPoly (A : Algo) : Nat → Nat → Quad → Quad
  | 0, _, _ => Quad.zero
  | n + 1, p, q => (if p.testBit 0 then q else Quad.zero).xor (evalPoly A n (p / 2) (advance A q))

theorem evalPoly_xor {A : Algo} (h : A.xorShift = true) (n p : Nat) (q r : Quad) :
    evalPoly A n p (q.xor r) = (evalPoly A n p q).xor (evalPoly A n p r) := by
  induction n generalizing p q r with
  | zero => simp [evalPoly]
  | succ n ih =>
    simp only [evalPoly, advance_xor h, ih]
    generalize evalPoly A n (p / 2) (advance A q) = a
    generalize evalPoly A n (p / 2) (advance A r) = b
    split
    · simp only [Quad.xor]; congr 1 <;> ac_rfl
    · simp

theorem evalPoly_advance {A : Algo} (h : A.xorShift = true) (n p : Nat) (q : Quad) :
    evalPoly A n p (advance A q) = advance A (evalPoly A n p q) := by
  induction n generalizing p q with
  | zero => exact (advance_zero h).symm
  | succ n ih =>
    simp only [evalPoly, advance_xor h, ih]
    split
    · rfl
    · rw [advance_zero h]

/-- Coefficients add by exclusive OR. -/
theorem evalPoly_add (A : Algo) (n p p' : Nat) (q : Quad) :
    evalPoly A n (p ^^^ p') q = (evalPoly A n p q).xor (evalPoly A n p' q) := by
  induction n generalizing p p' q with
  | zero => simp [evalPoly]
  | succ n ih =>
    have e : (p ^^^ p') / 2 = p / 2 ^^^ p' / 2 := by
      simpa [Nat.shiftRight_eq_div_pow] using Nat.shiftRight_xor_distrib (a := p) (b := p') (i := 1)
    simp only [evalPoly, e, ih, Nat.testBit_xor]
    generalize evalPoly A n (p / 2) (advance A q) = a
    generalize evalPoly A n (p' / 2) (advance A q) = b
    cases p.testBit 0 <;> cases p'.testBit 0
    · simp
    · simp only [Quad.xor, Quad.zero]; congr 1 <;> simp <;> ac_rfl
    · simp only [Quad.xor, Quad.zero]; congr 1 <;> simp <;> ac_rfl
    · simp only [Quad.xor, Quad.zero]
      congr 1 <;> simp <;> rw [show ∀ x y z : Word, x ^^^ y ^^^ (x ^^^ z) = x ^^^ (x ^^^ (y ^^^ z)) by intros; ac_rfl, xor_cancel_left]

/-- Times the update: one step more. -/
theorem evalPoly_double (A : Algo) (n p : Nat) (q : Quad) :
    evalPoly A (n + 1) (2 * p) q = evalPoly A n p (advance A q) := by
  simp [evalPoly, Nat.testBit_zero]

/-- The top coefficient. -/
theorem evalPoly_top (A : Algo) (n p : Nat) (q : Quad) :
    evalPoly A (n + 1) p q = (evalPoly A n p q).xor (if p.testBit n then (advance A)^[n] q else Quad.zero) := by
  induction n generalizing p q with
  | zero => simp [evalPoly]
  | succ n ih =>
    rw [evalPoly, ih, evalPoly, Quad.xor_assoc, Nat.testBit_div_two]
    rfl

/-- The selected sum of a jump constant list is the polynomial whose coefficients are its bits. -/
theorem selectedSum_eq_evalPoly (A : Algo) (K : List Word) (p : Nat) (q : Quad)
    (h : ∀ j, j < 64 * K.length → p.testBit j = constBit K j) : selectedSum A K q = evalPoly A (64 * K.length) p q := by
  have key : ∀ n, n ≤ 64 * K.length →
      (List.range n).foldl (fun acc j => if constBit K j then acc.xor ((advance A)^[j] q) else acc) Quad.zero = evalPoly A n p q := by
    intro n hn
    induction n with
    | zero => rfl
    | succ n ih =>
      rw [List.range_succ, List.foldl_append, ih (by omega), evalPoly_top, h n (by omega)]
      simp only [List.foldl_cons, List.foldl_nil]
      split <;> simp
  exact key _ (Nat.le_refl _)

/-! ### Arithmetic modulo a polynomial -/

/-- Times x, reduced by a polynomial `P` of degree `n`. -/
def timesX (n P p : Nat) : Nat := if p.testBit (n - 1) then 2 * p ^^^ P else 2 * p

/-- `f x`, in a form in which the kernel evaluates `x` to a numeral first. -/
def evaluated (x : Nat) (f : Nat → Nat) : Nat :=
  match x with
  | 0 => f 0
  | m + 1 => f (m + 1)

@[simp] theorem evaluated_eq (x : Nat) (f : Nat → Nat) : evaluated x f = f x := by cases x <;> rfl

/-- `acc · x^k + p · (r mod x^k)`, reduced: Horner's rule by the bits k-1, …, 0 of `r`. -/
def mulMod (n P p r : Nat) : Nat → Nat → Nat
  | 0, acc => acc
  | k + 1, acc => evaluated (timesX n P acc) fun a => evaluated (if r.testBit k then a ^^^ p else a) (mulMod n P p r k)

/-- The square taken `k` times, reduced. -/
def squared (n P : Nat) : Nat → Nat → Nat
  | 0, x => x
  | k + 1, x => evaluated (mulMod n P x x n 0) (squared n P k)

/-- The words above N(A) are zero. -/
def TailZero (A : Algo) (q : Quad) : Prop := q = A.merge q Quad.zero

theorem TailZero.advance {A : Algo} {q : Quad} (h : TailZero A q) : TailZero A (advance A q) := by
  rw [TailZero] at *
  rw [h]
  cases A <;> rfl

/-- The polynomial `P` of degree `n` annihilates the update. -/
def Annihilates (A : Algo) (n P : Nat) : Prop := ∀ q, TailZero A q → evalPoly A (n + 1) P q = Quad.zero

/-- The characteristic polynomial of each XOR/shift-based update, of degree 64·N(A), computed outside Lean from its bit sequences. That it
annihilates the update is `annihilatesBasis A (64 * A.width) (charPoly A) = true`, which is for the kernel to evaluate. -/
def charPoly : Algo → Nat
  | .splitmix64 => 0
  | .xoroshiro128p => 0x10008828e513b43d5095b8f76579aa001
  | .xoroshiro128pp => 0x10031bcf2f855d6e58dae70779760b081
  | .xoroshiro128pdrbg => 0x100653ced7f29f88a5fd66762f0e1c001
  | .xoshiro256pp => 0x10003c03c3f3ecb1904b4edcf26259f850280002bcefd1a5e9d116f2bb0f0f001

theorem evalPoly_timesX {A : Algo} {n P : Nat} (hn : 0 < n) (hP : Annihilates A n P) (hbit : P.testBit n = true) (p : Nat)
    (q : Quad) (hq : TailZero A q) : evalPoly A n (timesX n P p) q = evalPoly A n p (advance A q) := by
  have hd := evalPoly_double A n p q
  have h2 : (2 * p).testBit n = p.testBit (n - 1) := by
    obtain ⟨m, rfl⟩ : ∃ m, n = m + 1 := ⟨n - 1, by omega⟩
    rw [show 2 * p = p * 2 by omega, Nat.testBit_succ]
    simp
  have ht := evalPoly_top A n (timesX n P p) q
  rw [← hd]
  unfold timesX at *
  split
  · rename_i hb
    rw [if_pos hb, Nat.testBit_xor, h2, hb, hbit] at ht
    simp only [bne_self_eq_false, Bool.false_eq_true, if_false, Quad.xor_zero] at ht
    rw [← ht, evalPoly_add, hP q hq, Quad.xor_zero]
  · rename_i hb
    rw [if_neg hb, h2] at ht
    simp only [hb, Bool.false_eq_true, if_false, Quad.xor_zero] at ht
    exact ht.symm

theorem evalPoly_zero_poly (A : Algo) (n : Nat) (q : Quad) : evalPoly A n 0 q = Quad.zero := by
  induction n generalizing q with
  | zero => rfl
  | succ n ih => simp [evalPoly, ih]

theorem TailZero.iterate {A : Algo} {q : Quad} (h : TailZero A q) (m : Nat) : TailZero A ((Machine.advance A)^[m] q) := by
  induction m with
  | zero => exact h
  | succ m ih => rw [Function.iterate_succ_apply']; exact ih.advance

theorem evalPoly_mulMod {A : Algo} (h : A.xorShift = true) {n P : Nat} (hn : 0 < n) (hP : Annihilates A n P)
    (hbit : P.testBit n = true) (p r k acc : Nat) (q : Quad) (hq : TailZero A q) :
    evalPoly A n (mulMod n P p r k acc) q =
      (evalPoly A n acc ((advance A)^[k] q)).xor (evalPoly A n p (evalPoly A k r q)) := by
  have hz : evalPoly A n p Quad.zero = Quad.zero := by
    have := evalPoly_xor h n p Quad.zero Quad.zero
    rwa [Quad.xor_self, Quad.xor_self] at this
  induction k generalizing acc with
  | zero => simp [mulMod, evalPoly, hz]
  | succ k ih =>
    have hx := evalPoly_timesX hn hP hbit acc _ (hq.iterate k)
    rw [mulMod, evaluated_eq, evaluated_eq, ih, evalPoly_top, evalPoly_xor h, Function.iterate_succ_apply', ← hx]
    split
    · rw [evalPoly_add, Quad.xor_assoc, Quad.xor_comm (evalPoly A n p (evalPoly A k r q))]
    · rw [hz, Quad.xor_zero]

/-- If `P` annihilates the update and `x` is `m` steps, `x` squared `k` times, reduced by `P`, is `m · 2^k` steps. -/
theorem evalPoly_squared {A : Algo} (h : A.xorShift = true) {n P : Nat} (hn : 0 < n) (hP : Annihilates A n P)
    (hbit : P.testBit n = true) (k m x : Nat) (hx : ∀ q, TailZero A q → evalPoly A n x q = (advance A)^[m] q) (q : Quad)
    (hq : TailZero A q) : evalPoly A n (squared n P k x) q = (advance A)^[m * 2 ^ k] q := by
  induction k generalizing m x with
  | zero => simpa [squared] using hx q hq
  | succ k ih =>
    rw [squared, evaluated_eq, ih (m + m)]
    · congr 1
      rw [pow_succ]; ring
    · intro q hq
      rw [evalPoly_mulMod h hn hP hbit _ _ _ _ _ hq, evalPoly_zero_poly, Quad.zero_xor, hx q hq, hx _ (hq.iterate m),
        Function.iterate_add_apply]

/-- x is one step. -/
theorem evalPoly_two (A : Algo) (n : Nat) (hn : 1 < n) (q : Quad) : evalPoly A n 2 q = (advance A)^[1] q := by
  obtain ⟨m, rfl⟩ : ∃ m, n = m + 2 := ⟨n - 2, by omega⟩
  simp [evalPoly, Nat.testBit_zero, evalPoly_zero_poly]

/-! ### From basis vectors to all tuples -/

/-- An additive function that is zero at every power of two is zero. -/
theorem additive_eq_zero (f : Word → Quad) (hadd : ∀ a b, f (a ^^^ b) = (f a).xor (f b))
    (hbasis : ∀ i, i < 64 → f (1#64 <<< i) = Quad.zero) (x : Word) : f x = Quad.zero := by
  have key : ∀ n, n ≤ 64 → ∀ x : Word, (∀ j, n ≤ j → x.getLsbD j = false) → f x = Quad.zero := by
    intro n hn
    induction n with
    | zero =>
      intro x hx
      have : x = 0#64 := BitVec.eq_of_getLsbD_eq fun i _ => by simp [hx i (Nat.zero_le _)]
      have h0 := hadd 0 0
      rw [this]
      simpa using h0
    | succ n ih =>
      intro x hx
      by_cases hb : x.getLsbD n = true
      · have hy := ih (by omega) (x ^^^ 1#64 <<< n) (by
          intro j hj
          by_cases hjn : j = n
          · subst hjn
            simp [hb]; omega
          · rw [BitVec.getLsbD_xor, hx j (by omega)]
            simp only [BitVec.getLsbD_shiftLeft, BitVec.getLsbD_one]
            have : j - n ≠ 0 := by omega
            simp [this])
        have := hadd (x ^^^ 1#64 <<< n) (1#64 <<< n)
        rw [BitVec.xor_assoc, BitVec.xor_self, BitVec.xor_zero, hy, hbasis n (by omega)] at this
        simpa using this
      · exact ih (by omega) x fun j hj => by
          by_cases hjn : j = n
          · subst hjn; simpa using hb
          · exact hx j (by omega)
  exact key 64 (Nat.le_refl _) x fun j hj => BitVec.getLsbD_of_ge _ _ hj

/-- Word `k` alone. -/
def unitWord (k : Nat) (x : Word) : Quad := Quad.zero.set k x

theorem unitWord_xor (k : Nat) (x y : Word) : unitWord k (x ^^^ y) = (unitWord k x).xor (unitWord k y) := by
  match k with
  | 0 | 1 | 2 | 3 => simp [unitWord, Quad.set, Quad.xor, Quad.zero]
  | n + 4 => simp [unitWord, Quad.set]

/-- The polynomial `P` is zero at every basis vector of the live words. -/
def annihilatesBasis (A : Algo) (n P : Nat) : Bool :=
  (List.range A.width).all fun k => (List.range 64).all fun i => evalPoly A (n + 1) P (unitWord k (1#64 <<< i)) == Quad.zero

theorem annihilates_of_basis {A : Algo} (h : A.xorShift = true) {n P : Nat} (hb : annihilatesBasis A n P = true) :
    Annihilates A n P := by
  intro q hq
  simp only [annihilatesBasis, List.all_eq_true, List.mem_range, beq_iff_eq] at hb
  have word : ∀ k, k < A.width → ∀ x, evalPoly A (n + 1) P (unitWord k x) = Quad.zero := fun k hk =>
    additive_eq_zero (fun x => evalPoly A (n + 1) P (unitWord k x))
      (fun a b => by rw [unitWord_xor, evalPoly_xor h]) (hb k hk)
  have split2 : ∀ a b : Word, (⟨a, b, 0, 0⟩ : Quad) = (unitWord 0 a).xor (unitWord 1 b) := by
    intro a b; simp [unitWord, Quad.set, Quad.xor, Quad.zero]
  have split4 : ∀ a b c d : Word,
      (⟨a, b, c, d⟩ : Quad) = ((unitWord 0 a).xor (unitWord 1 b)).xor ((unitWord 2 c).xor (unitWord 3 d)) := by
    intro a b c d; simp [unitWord, Quad.set, Quad.xor, Quad.zero]
  rw [hq]
  obtain ⟨a, b, c, d⟩ := q
  cases A <;> first
    | exact absurd h (by decide)
    | (change evalPoly _ (n + 1) P ⟨a, b, 0, 0⟩ = _
       rw [split2, evalPoly_xor h, word 0 (by decide), word 1 (by decide), Quad.xor_self])
    | (change evalPoly _ (n + 1) P ⟨a, b, c, d⟩ = _
       rw [split4, evalPoly_xor h, evalPoly_xor h, evalPoly_xor h, word 0 (by decide), word 1 (by decide), word 2 (by decide),
         word 3 (by decide)]
       simp)

end Sys2Proof.Machine
end

