-- ==== Sys2Proof/Laws/PerInstr.lean ====
section
/-! SUPPORT. Facts about every command as syntax, one lemma per constructor. Family `LowByte`: the low byte of a command's word is its opcode
(30_encoding.md R100: "Bits [7:0] are always the opcode OPC"). -/

namespace Sys2Proof.Laws

/-- A word shifted left by 8 or more has a zero low byte. -/
theorem place_low_byte (v lo : Nat) (h : 8 ≤ lo) : (place v lo).extractLsb' 0 8 = 0#8 := by
  apply BitVec.eq_of_getLsbD_eq
  intro i hi
  simp [place, BitVec.getLsbD_extractLsb']
  omega

/-- A number put at bit 0 has its low byte there. -/
theorem place_zero_low_byte (v : Nat) : (place v 0).extractLsb' 0 8 = BitVec.ofNat 8 v := by
  apply BitVec.eq_of_toNat_eq
  simp [place, BitVec.extractLsb'_toNat]

/-- `encode` puts the opcode in the low byte when the operand fields stay out of it. -/
theorem encode_low_byte (i : Instr) (h : (operandBits i).extractLsb' 0 8 = 0#8) :
    (encode i).extractLsb' 0 8 = BitVec.ofNat 8 (opcodeOf i) := by
  rw [encode, BitVec.extractLsb'_or, h, place_zero_low_byte, BitVec.or_zero]

end Sys2Proof.Laws

/-- The low byte of the command's word is its opcode. -/
def Sys2Proof.Laws.LowByte.Statement (i : Sys2Proof.Instr) : Prop :=
  (Sys2Proof.encode i).extractLsb' 0 8 = BitVec.ofNat 8 (Sys2Proof.opcodeOf i)

namespace Sys2Proof.Laws.LowByte

theorem nop : Statement .nop := encode_low_byte _ rfl
theorem next : Statement .next := encode_low_byte _ rfl
theorem jump : Statement .jump := encode_low_byte _ rfl
theorem ljump : Statement .ljump := encode_low_byte _ rfl
theorem udbl : Statement .udbl := encode_low_byte _ rfl
theorem uflt : Statement .uflt := encode_low_byte _ rfl
theorem cmpst : Statement .cmpst := encode_low_byte _ rfl
theorem sreset : Statement .sreset := encode_low_byte _ rfl
theorem seed (a : Nat) : Statement (.seed a) := encode_low_byte _ (place_low_byte a 8 (by omega))
theorem seedent (a : Nat) : Statement (.seedent a) := encode_low_byte _ (place_low_byte a 8 (by omega))
theorem seeddraw (a : Nat) : Statement (.seeddraw a) := encode_low_byte _ (place_low_byte a 8 (by omega))

/-- The operand fields of a rotation start at bit 12 or above. -/
theorem rotate_operands (w sh : Nat) : (place (widthCode w) 12 ||| place sh 16).extractLsb' 0 8 = 0#8 := by
  rw [BitVec.extractLsb'_or, place_low_byte _ 12 (by omega), place_low_byte _ 16 (by omega)]
  rfl

theorem rotl (w sh : Nat) : Statement (.rotl w sh) := encode_low_byte _ (rotate_operands w sh)
theorem rotr (w sh : Nat) : Statement (.rotr w sh) := encode_low_byte _ (rotate_operands w sh)
theorem rotli (w sh : Nat) : Statement (.rotli w sh) := encode_low_byte _ (rotate_operands w sh)
theorem rotri (w sh : Nat) : Statement (.rotri w sh) := encode_low_byte _ (rotate_operands w sh)

end Sys2Proof.Laws.LowByte
end

