-- ==== Sys2Proof/Laws/Step.lean ====
section
/-! SUPPORT. Everything a host access and a step can do: one lemma each, cited instead of unfolding them. -/

namespace Sys2Proof.Machine

/-! ### Host accesses -/

theorem windowOffset_base (b : Build) (off : Nat) (h : off < 256) : windowOffset b (b.baseAddr + off) = some off := by
  rw [windowOffset, if_pos (by omega), Nat.add_sub_cancel_left]

theorem windowOffset_some {b : Build} {addr off : Nat} (h : windowOffset b addr = some off) :
    addr = b.baseAddr + off ∧ off < 256 := by
  unfold windowOffset at h
  split at h
  · cases h; omega
  · cases h

/-- The offset of each register (10 R32). -/
def Reg.offset : Reg → Nat
  | .id => 0x00
  | .cmd => 0x08
  | .status => 0x10
  | .faultcmd => 0x18
  | .seed k => 0x20 + 8 * k
  | .state k => 0x40 + 8 * k
  | .out => 0x60
  | .operand => 0x68

/-- A register stands at its own offset and nowhere else. -/
theorem regAt_some {off : Nat} {r : Reg} (h : regAt off = some r) : off = r.offset := by
  unfold regAt at h
  split at h <;> cases h <;> rfl

/-- Offsets from 0x70 up and misaligned ones hold no register; the others do. -/
theorem regAt_none_iff (off : Nat) : regAt off = none ↔ 0x70 ≤ off ∨ off % 8 ≠ 0 := by
  constructor
  · intro h
    by_contra hn
    have : off < 0x70 ∧ off % 8 = 0 := by omega
    obtain ⟨h1, h2⟩ := this
    interval_cases off <;> simp_all [regAt]
  · intro h
    cases hr : regAt off with
    | none => rfl
    | some r =>
      have := regAt_some hr
      cases r <;> simp only [Reg.offset] at this <;> omega

theorem requestAt_read {off : Nat} {a : HostAccess} {r : Reg} (h : requestAt off a = .read r) :
    regAt off = some r ∧ a.size = 8 ∧ a.op = .read := by
  unfold requestAt at h
  split at h
  · cases h
  · split at h
    · cases h
    · split at h
      · cases h; exact ⟨‹_›, by omega, ‹_›⟩
      · split at h <;> cases h

theorem requestAt_write {off : Nat} {a : HostAccess} {r : Reg} {v : Word} (h : requestAt off a = .write r v) :
    regAt off = some r ∧ a.size = 8 ∧ a.op = .write 0xFF v ∧ writable r = true := by
  unfold requestAt at h
  split at h
  · cases h
  · split at h
    · cases h
    · split at h
      · cases h
      · split at h
        · rename_i hs
          cases h
          obtain ⟨rfl, hw⟩ := hs
          exact ⟨‹_›, by omega, ‹_›, hw⟩
        · cases h

/-- What becomes of an access that arrives. -/
inductive Arrival (a : HostAccess) (s : State) : State → Prop
  | outside (h : windowOffset s.build a.addr = none) : Arrival a s s
  | held (off : Nat) (ho : windowOffset s.build a.addr = some off) (hb : s.busy = true)
      (hq : neverHeld (requestAt off a) = false) : Arrival a s (hold a s)
  | refused (off : Nat) (ho : windowOffset s.build a.addr = some off)
      (hq : requestAt off a = .bad ∨ ∃ v, requestAt off a = .write .cmd v ∧ s.busy = false ∧ s.fault = true ∧ v ≠ sresetWord) :
      Arrival a s (answer a .error s)
  | read (off : Nat) (r : Reg) (ho : windowOffset s.build a.addr = some off) (hq : requestAt off a = .read r)
      (hb : s.busy = false ∨ r = .id ∨ r = .status) : Arrival a s (answer a (.data (readReg s r)) s)
  | seeded (off : Nat) (k : Fin 4) (v : Word) (ho : windowOffset s.build a.addr = some off)
      (hq : requestAt off a = .write (.seed k) v) (hb : s.busy = false) :
      Arrival a s (answer a .okay { s with seed := s.seed.set k v })
  | operand (off : Nat) (v : Word) (ho : windowOffset s.build a.addr = some off)
      (hq : requestAt off a = .write .operand v) (hb : s.busy = false) :
      Arrival a s (answer a .okay { s with operand := v })
  | accepted (off : Nat) (v : Word) (ho : windowOffset s.build a.addr = some off)
      (hq : requestAt off a = .write .cmd v) (hb : s.busy = false) (hf : s.fault = true → v = sresetWord) :
      Arrival a s (answer a .okay (accept v s))

theorem arrive_arrival (a : HostAccess) (s : State) : Arrival a s (arrive a s) := by
  unfold arrive
  cases ho : windowOffset s.build a.addr with
  | none => exact .outside ho
  | some off =>
    simp only []
    cases hq : requestAt off a with
    | bad => simpa [neverHeld, perform] using Arrival.refused off ho (.inl hq)
    | read r =>
      by_cases hb : s.busy = true ∧ neverHeld (.read r) = false
      · rw [if_pos (by simp [hb])]
        exact .held off ho hb.1 (by rw [hq]; exact hb.2)
      · rw [if_neg (by simp_all), perform]
        refine .read off r ho hq ?_
        cases hs : s.busy
        · exact .inl rfl
        · cases r <;> simp_all [neverHeld]
    | write r v =>
      by_cases hb : s.busy = true
      · rw [if_pos (by simp [hb, neverHeld])]
        exact .held off ho hb (by rw [hq]; rfl)
      · have hb' : s.busy = false := by simpa using hb
        rw [if_neg (by simp [hb']), perform]
        have hw := (requestAt_write hq).2.2.2
        cases r <;> simp [writable] at hw
        case cmd =>
          rw [performWrite]
          split
          · rename_i hr
            simp only [refuses, Bool.and_eq_true, bne_iff_ne, ne_eq] at hr
            exact .refused off ho (.inr ⟨v, hq, hb', hr⟩)
          · rename_i hr
            refine .accepted off v ho hq hb' ?_
            simpa [refuses] using hr
        case seed k => exact .seeded off k v ho hq hb'
        case operand => exact .operand off v ho hq hb'

/-- The oldest held access, if there is one, arrives again. -/
theorem releaseHeld_cases (s : State) :
    (s.held = [] ∧ releaseHeld s = s) ∨
    ∃ a rest, s.held = a :: rest ∧ releaseHeld s = arrive a { s with held := rest } := by
  unfold releaseHeld
  split
  · exact .inl ⟨‹_›, rfl⟩
  · exact .inr ⟨_, _, ‹_›, rfl⟩

/-! ### Steps -/

/-- The moves of a step, by the head of the agenda and who may move. -/
inductive Move (s : State) : Outcome → Prop
  | command (rest : List Input) (ha : s.agenda = .clock :: rest ∨ (s.agenda = [] ∧ rest = [])) (hr : s.rstN = true)
      (hb : s.busy = true) : Move s (runCommand { s with agenda := rest })
  | release (rest : List Input) (ha : s.agenda = .clock :: rest ∨ (s.agenda = [] ∧ rest = [])) (hr : s.rstN = true)
      (hb : s.busy = false) : Move s (.next (releaseHeld { s with agenda := rest }))
  | still (rest : List Input) (ha : s.agenda = .clock :: rest ∨ (s.agenda = [] ∧ rest = [])) (hr : s.rstN = false) :
      Move s (.next { s with agenda := rest })
  | access (a : HostAccess) (rest : List Input) (ha : s.agenda = .host a :: rest) (hr : s.rstN = true)
      (hb : s.busy = true ∨ s.held = []) : Move s (.next (arrive a { s with agenda := rest }))
  | first (a : HostAccess) (rest : List Input) (ha : s.agenda = .host a :: rest) (hr : s.rstN = true)
      (hb : s.busy = false) (hh : s.held ≠ []) : Move s (.next (releaseHeld s))
  | stop (a : HostAccess) (rest : List Input) (ha : s.agenda = .host a :: rest) (hr : s.rstN = false) :
      Move s (.fault .accessDuringReset)
  | resetOn (rest : List Input) (ha : s.agenda = .rstLow :: rest) : Move s (.next (assertReset { s with agenda := rest }))
  | resetOff (rest : List Input) (ha : s.agenda = .rstHigh :: rest) : Move s (.next { s with agenda := rest, rstN := true })

/-- A turn of the block, with `rest` left on the agenda. -/
theorem blockTurn_move (s : State) (rest : List Input) (ha : s.agenda = .clock :: rest ∨ (s.agenda = [] ∧ rest = [])) :
    Move s (blockTurn { s with agenda := rest }) := by
  rw [blockTurn]
  simp only []
  split
  · split
    · exact .command rest ha ‹_› ‹_›
    · rename_i hb
      exact .release rest ha ‹_› (by simpa using hb)
  · rename_i hr
    exact .still rest ha (by simpa using hr)

/-- Every step is one of the moves. -/
theorem step_move (s : State) : Move s (step s) := by
  rw [step, schedule]
  split
  · rename_i h
    have e : s = { s with agenda := [] } := by cases s; simp_all
    have m := blockTurn_move s [] (.inr ⟨h, rfl⟩)
    rwa [← e] at m
  · rename_i rest h
    exact blockTurn_move s rest (.inl h)
  · rename_i a rest h
    rw [hostTurn]
    split
    · split
      · rename_i hr hb
        exact .access a rest h hr (by simpa using hb)
      · rename_i hr hb
        simp only [Bool.or_eq_true, not_or, List.isEmpty_iff] at hb
        exact .first a rest h hr (by simpa using hb.1) hb.2
    · rename_i hr
      exact .stop a rest h (by simpa using hr)
  · exact .resetOn _ ‹_›
  · exact .resetOff _ ‹_›

/-- The engine's turn always answers a next state. -/
theorem runCommand_cases (s : State) :
    ((∀ i, decode s.pend ≠ .ok i) ∧ runCommand s = .next (takeFault .illegalOpcode s)) ∨
    ∃ i t, decode s.pend = .ok i ∧ runCommand s = .next t ∧ exec i s = .next t ∧ CommandEnds i s t := by
  cases h : decode s.pend with
  | error e => exact .inl ⟨by simp, by rw [runCommand, h]; rfl⟩
  | ok i =>
    obtain ⟨t, h1, h2⟩ := exec_ends i s
    exact .inr ⟨i, t, rfl, by rw [runCommand, h]; exact h1, h1, h2⟩

end Sys2Proof.Machine
end

