-- ==== Sys2Proof/Tests/Slice0.lean ====
section
/-! SUPPORT. The model's own tests. Every expected value is the spec's: 30_encoding.md R114, the examples of the command rules, and the
vectors of 95_test_vectors.md (named in each comment). -/

namespace Sys2Proof.Tests

open Sys2Proof.Machine

/-! ### WellFormed: one ill-formed term for each check -/

theorem test_seed_code_8_ill_formed : (Instr.seed 8).wellFormed = false := by decide
theorem test_seedent_code_8_ill_formed : (Instr.seedent 8).wellFormed = false := by decide
theorem test_seeddraw_code_8_ill_formed : (Instr.seeddraw 8).wellFormed = false := by decide
theorem test_rotl_width_24_ill_formed : (Instr.rotl 24 3).wellFormed = false := by decide
theorem test_rotr_width_0_ill_formed : (Instr.rotr 0 3).wellFormed = false := by decide
theorem test_rotli_shift_64_ill_formed : (Instr.rotli 64 64).wellFormed = false := by decide
theorem test_rotri_width_128_ill_formed : (Instr.rotri 128 3).wellFormed = false := by decide
theorem test_reserved_code_well_formed : (Instr.seed 6).wellFormed = true := by decide
theorem test_out_of_range_shift_well_formed : (Instr.rotl 8 8).wellFormed = true := by decide

/-! ### Decode: the words of R114, of 95 V1 and of 95 V2 -/

theorem test_decode_nop : decode 0x0000000000000000#64 = .ok .nop := by decide
theorem test_decode_seed : decode 0x0000000000000101#64 = .ok (.seed 1) := by decide
theorem test_decode_seedent : decode 0x0000000000000502#64 = .ok (.seedent 5) := by decide
theorem test_decode_seeddraw : decode 0x0000000000000503#64 = .ok (.seeddraw 5) := by decide
theorem test_decode_next : decode 0x0000000000000004#64 = .ok .next := by decide
theorem test_decode_jump : decode 0x0000000000000005#64 = .ok .jump := by decide
theorem test_decode_ljump : decode 0x0000000000000006#64 = .ok .ljump := by decide
theorem test_decode_udbl : decode 0x0000000000000007#64 = .ok .udbl := by decide
theorem test_decode_uflt : decode 0x0000000000000008#64 = .ok .uflt := by decide
theorem test_decode_cmpst : decode 0x0000000000000009#64 = .ok .cmpst := by decide
theorem test_decode_rotl : decode 0x0000000000102010#64 = .ok (.rotl 32 16) := by decide
theorem test_decode_rotr : decode 0x0000000000041011#64 = .ok (.rotr 16 4) := by decide
theorem test_decode_rotli : decode 0x0000000000102012#64 = .ok (.rotli 32 16) := by decide
theorem test_decode_rotri : decode 0x00000000003F3013#64 = .ok (.rotri 64 63) := by decide
theorem test_decode_sreset : decode 0x00000000000000FF#64 = .ok .sreset := by decide

/-- 95 V1.2 to V1.8: one illegal word for each reserved field, and two unassigned opcodes. -/
theorem test_decode_illegal_words :
    decode 0x0000000000000100#64 = .error .reservedBitSet ∧
    decode 0x8000000000000004#64 = .error .reservedBitSet ∧
    decode 0x0000000000001101#64 = .error .reservedBitSet ∧
    decode 0x0000000000402010#64 = .error .reservedBitSet ∧
    decode 0x0000000000000C10#64 = .error .reservedBitSet ∧
    decode 0x0000000000004010#64 = .error .reservedBitSet ∧
    decode 0x000000000000000A#64 = .error .unassignedOpcode ∧
    decode 0x00000000000000FE#64 = .error .unassignedOpcode := by decide

theorem test_encode_rotri : encode (.rotri 64 63) = 0x00000000003F3013#64 := by decide
theorem test_decode_table_word : decodeTableWord 64 0x0503 = some (.seeddraw 5) := by decide

/-! ### One command at a time -/

/-- The state a command leaves. -/
def after : Outcome → Option State
  | .next t => some t
  | .fault _ => none
  | .refused _ => none

/-- A context, with the command word `c` accepted. -/
def running (c : Word) (A : Option Algo) (q : Quad) : State :=
  { State.reset with algo := A, ctx := q, pend := c, busy := true }

/-- The command word `c` accepted, with `x` in OPERAND. -/
def rotating (c x : Word) : State := { State.reset with operand := x, pend := c, busy := true }

/-- MAX (00 R8). -/
def max : Word := 0xFFFFFFFFFFFFFFFF#64

/-- 40 R132 example. -/
theorem test_rotl : (after (execRotl 32 3 (rotating 0x32010 0xABCD))).map (·.out) = some 0x55E68#64 := by decide
/-- 95 V2.4: bits above 7 are ignored. -/
theorem test_rotl_ignores_upper_bits :
    (after (execRotl 8 1 (rotating 0x10010 0xFFFFFFFFFFFFFF80))).map (fun t => (t.out, t.operand)) =
      some (0x01#64, 0xFFFFFFFFFFFFFF80#64) := by decide
/-- 40 R133 example. -/
theorem test_rotr : (after (execRotr 32 3 (rotating 0x32011 0xABCD))).map (·.out) = some 0xA0001579#64 := by decide
/-- 40 R134 example. -/
theorem test_rotli :
    (after (execRotli 32 16 (rotating 0x102012 0xFFFFFFFF0000ABCD))).map (fun t => (t.operand, t.out)) =
      some (0xABCD0000#64, 0#64) := by decide
/-- 40 R135 example. -/
theorem test_rotri : (after (execRotri 64 63 (rotating 0x3F3013 1))).map (·.operand) = some 2#64 := by decide
/-- 95 V2.13: ROT_RANGE. -/
theorem test_rotl_out_of_range :
    (after (execRotl 8 8 (rotating 0x80010 0x80))).map (fun t => (statusWord t, t.faultcmd, t.out)) =
      some (0x62#64, 0x80010#64, 0#64) := by decide

/-- 41 R157 example (95 S3). -/
theorem test_next_splitmix64 :
    (after (execNext (running 4 (some .splitmix64) ⟨max, 0, 0, 0⟩))).map (fun t => (t.out, t.ctx.w0)) =
      some (0xE4D971771B652C20#64, 0x9E3779B97F4A7C14#64) := by decide
/-- The steps of 95 V4.4, V5.4 and V6.3 from (1, 2), and V7.1. -/
theorem test_step_functions :
    genStep .xoroshiro128p ⟨1, 2, 0, 0⟩ = (0x3#64, ⟨0x1030003#64, 0x6000000000#64, 0, 0⟩) ∧
    genStep .xoroshiro128pp ⟨1, 2, 0, 0⟩ = (0x60001#64, ⟨0x0002000000600003#64, 0x30000000#64, 0, 0⟩) ∧
    genStep .xoroshiro128pdrbg ⟨1, 2, 0, 0⟩ = (0x3#64, ⟨0x008000000000C003#64, 0x0000003000000000#64, 0, 0⟩) ∧
    genStep .xoshiro256pp ⟨1, 2, 3, 4⟩ = (0x2800001#64, ⟨7, 0, 0x40002#64, 0x0000C00000000000#64⟩) := by decide
/-- 95 V10.1: NEXT on an unseeded context. -/
theorem test_next_unseeded :
    (after (execNext (running 4 none Quad.zero))).map (fun t => (statusWord t, t.faultcmd, irq t)) =
      some (0x42#64, 0x4#64, true) := by decide

/-- 45 R224 example (95 V8.7). -/
theorem test_jump_xoroshiro128pp :
    (after (execJump (running 5 (some .xoroshiro128pp) ⟨1, 2, 0, 0⟩))).map (·.ctx) =
      some ⟨0x77B2EAD123DDE4BB#64, 0xF60F09E0665F8D42#64, 0, 0⟩ := by decide +kernel
/-- 95 V8.3, V8.10 and V8.12. -/
theorem test_jump_other_lists :
    (after (execJump (running 5 (some .xoroshiro128p) ⟨1, 2, 0, 0⟩))).map (·.ctx) =
      some ⟨0x66FBD4BE1DF0A7B5#64, 0x830C3DDBB4AA3172#64, 0, 0⟩ ∧
    (after (execJump (running 5 (some .xoroshiro128pdrbg) ⟨1, 2, 0, 0⟩))).map (·.ctx) =
      some ⟨0x814146B67B285F30#64, 0x7F6FF236623B4E25#64, 0, 0⟩ ∧
    (after (execJump (running 5 (some .xoshiro256pp) ⟨1, 2, 3, 4⟩))).map (·.ctx) =
      some ⟨0x8C7A153956B5F3D1#64, 0x701F1A713401D85E#64, 0x6527F66A65469085#64, 0x8386B786C4408050#64⟩ := by decide +kernel
/-- 95 V8.4, V8.8 and V8.13. -/
theorem test_ljump_lists :
    (after (execLjump (running 6 (some .xoroshiro128p) ⟨1, 2, 0, 0⟩))).map (·.ctx) =
      some ⟨0x3CE44494D47D323A#64, 0x2AA25CA8D61DE643#64, 0, 0⟩ ∧
    (after (execLjump (running 6 (some .xoroshiro128pp) ⟨1, 2, 0, 0⟩))).map (·.ctx) =
      some ⟨0x1ECB960BEFAF39E9#64, 0x85FE3812041D7A83#64, 0, 0⟩ ∧
    (after (execLjump (running 6 (some .xoshiro256pp) ⟨1, 2, 3, 4⟩))).map (·.ctx) =
      some ⟨0x096A8EB71295A400#64, 0xDBF84991E50F4516#64, 0x534EE745810D2A0E#64, 0x31655CA1A2215BF1#64⟩ := by decide +kernel
/-- 95 V8.11: LJUMP on the DRBG variant. -/
theorem test_ljump_unsupported :
    (after (execLjump (running 6 (some .xoroshiro128pdrbg) ⟨1, 0, 0, 0⟩))).map (fun t => (statusWord t, t.ctx)) =
      some (0x452#64, ⟨1, 0, 0, 0⟩) := by decide

/-- 95 V9.3, V9.4, V9.8 and V9.10: the double and the float of a raw word. -/
theorem test_unit_bits :
    unitDoubleBits 0x800#64 = 0x3CA0000000000000#64 ∧ unitDoubleBits max = 0x3FEFFFFFFFFFFFFF#64 ∧
    unitDoubleBits 0x000000FFFFFFFFFF#64 = 0x3E6FFFFFFF000000#64 ∧ unitDoubleBits 0x7FF#64 = 0#64 ∧
    unitFloatBits max = 0x3F7FFFFF#32 ∧ unitFloatBits 0x000000FFFFFFFFFF#64 = 0#32 ∧
    unitFloatBits 0x8000010000000000#64 = 0x3F000001#32 := by decide
/-- 46 R242 example. -/
theorem test_udbl :
    (after (execUdbl (running 7 (some .splitmix64) ⟨0x9E3779B97F4A7C14#64, 0, 0, 0⟩))).map (·.out) =
      some 0x3FED33FF0CFB7ED0#64 := by decide
/-- 46 R243 example: the third draw of 95 V3.1. -/
theorem test_uflt :
    (after (execUflt (running 8 (some .splitmix64) ⟨0x3C6EF372FE94F829#64, 0, 0, 0⟩))).map (·.out) =
      some 0x3E60BFE0#64 := by decide
/-- 95 V11.2: FEATURE_ABSENT beats NOT_SEEDED. -/
theorem test_udbl_feature_absent :
    (after (execUdbl { running 7 none Quad.zero with build := { Build.default with hasUnit := false } })).map statusWord =
      some 0x22#64 := by decide

/-- 41 R154 example. -/
theorem test_seed_splitmix64 :
    (after (execSeed 1 { running 0x101 none Quad.zero with seed := ⟨max, 5, 6, 7⟩ })).map (fun t => (t.algo, t.ctx)) =
      some (some .splitmix64, ⟨max, 0, 0, 0⟩) := by decide
/-- 95 S8: SEED2 = 5 does not save a two-word generator from ZERO_SEED. -/
theorem test_seed_zero :
    (after (execSeed 2 { running 0x201 none Quad.zero with seed := ⟨0, 0, 5, 0⟩ })).map (fun t => (statusWord t, t.faultcmd)) =
      some (0x82#64, 0x201#64) := by decide
/-- A sample with a byte. -/
def byteSample (b : Byte) : EntSample := ⟨true, b, false⟩
/-- 41 R155 example, with one edge on which the port does not answer: the command then waits, and STATUS reads 0x801 (95 P6). -/
theorem test_seedent :
    (after (execSeedent 5 { running 0x502 none Quad.zero with
        entropy := (List.range 32).map fun i => byteSample (BitVec.ofNat 8 i) })).map (·.ctx) =
      some ⟨0x0706050403020100#64, 0x0F0E0D0C0B0A0908#64, 0x1716151413121110#64, 0x1F1E1D1C1B1A1918#64⟩ := by decide +kernel
theorem test_seedent_waits :
    (after (execSeedent 5 { running 0x502 none Quad.zero with entropy := [byteSample 1, ⟨false, 0, false⟩] })).map
      (fun t => (statusWord t, t.ecnt, t.ctx)) = some (0x801#64, 1, Quad.zero) := by decide
/-- 95 V10.8: the source fails at the sixth byte; failure wins over an acknowledge on the same edge (20 R93). -/
theorem test_seedent_fails :
    (after (execSeedent 2 { running 0x202 (some .splitmix64) ⟨7, 0, 0, 0⟩ with
        entropy := List.replicate 5 (byteSample 0xAA) ++ [⟨true, 0xAA, true⟩] })).map (fun t => (statusWord t, t.ctx)) =
      some (0x172#64, ⟨7, 0, 0, 0⟩) := by decide
/-- 41 R156 example. -/
theorem test_seeddraw :
    (after (execSeeddraw 5 (running 0x503 (some .splitmix64) ⟨0x0123456789ABCDEF#64, 0, 0, 0⟩))).map (fun t => (t.algo, t.ctx)) =
      some (some .xoshiro256pp,
        ⟨0x157A3807A48FAA9D#64, 0xD573529B34A1D093#64, 0x2F90B72E996DCCBE#64, 0xA2D419334C4667EC#64⟩) := by decide
/-- 95 V11.3: ILLEGAL_ALGO beats NOT_SEEDED. -/
theorem test_seeddraw_illegal_algo :
    (after (execSeeddraw 6 (running 0x603 none Quad.zero))).map statusWord = some 0x32#64 := by decide

/-- 95 V10.11: SEED2 and SEED3 are ignored for N = 2. -/
theorem test_cmpst_equal :
    (after (execCmpst { running 9 (some .xoroshiro128pp) ⟨1, 2, 0, 0⟩ with seed := ⟨1, 2, 9, 9⟩ })).map statusWord =
      some 0x304#64 := by decide
/-- 95 V10.10. -/
theorem test_cmpst_unequal :
    (after (execCmpst { running 9 (some .xoroshiro128pp) ⟨0x0002000000600003#64, 0x30000000#64, 0, 0⟩ with
        seed := ⟨1, 2, 0, 0⟩ })).map statusWord = some 0x300#64 := by decide
/-- 95 V10.12. -/
theorem test_nop : after (execNop (running 0 none Quad.zero)) = some State.reset := by decide
/-- 41 R160 example. -/
theorem test_sreset :
    after (execSreset { rotating 0xFF 5 with fault := true, cause := .rotRange, faultcmd := 0x80010 }) = some State.reset := by decide

/-! ### Accesses and turns -/

/-- An 8-byte read at an offset, with BASE_ADDR = 0. -/
def readAt (off : Nat) : HostAccess := ⟨off, 8, .read⟩
/-- A full-strobe 8-byte write. -/
def writeAt (off : Nat) (v : Word) : HostAccess := ⟨off, 8, .write 0xFF v⟩

/-- 95 V12.11 and V13: ID with the default parameters, with HAS_UNIT = 0, and with SPLITMIX64 alone. -/
theorem test_id :
    idWord Build.default = 0x007F000144524247#64 ∧
    idWord { Build.default with hasUnit := false } = 0x003F000144524247#64 ∧
    idWord { Build.default with hasAlgo := 0b00001 } = 0x0061000144524247#64 := by decide
/-- 95 V12.1 to V12.9: bus errors. -/
theorem test_bus_errors :
    [⟨0x60, 4, .read⟩, readAt 0x61, readAt 0x70, readAt 0xF8, writeAt 0x10 1, writeAt 0x60 1, writeAt 0 1, writeAt 0x40 1,
      writeAt 0x18 1, ⟨0x20, 8, .write 0x0F 1⟩].map (fun a => (arrive a State.reset).answers.map (·.2)) =
      List.replicate 10 [.error] := by decide
/-- 20 R75, R76 and R77: SEED2 stores and reads back, CMD reads 0. -/
theorem test_seed_write_read :
    (arrive (readAt 0x08) (arrive (readAt 0x30) (arrive (writeAt 0x30 7) State.reset))).answers.map (·.2) =
      [.data 0, .data 7, .okay] := by decide
/-- 60 R264: a refused command word (95 V12.12), and the SRESET word (V12.13). -/
theorem test_refusal_while_faulted :
    (arrive (writeAt 0x08 4) { State.reset with fault := true }).answers.map (·.2) = [.error] ∧
    (arrive (writeAt 0x08 0xFF) { State.reset with fault := true }).busy = true := by decide
/-- 20 R82: while BUSY, STATUS reads 1 at once and a read of OUT is held. -/
theorem test_hold_while_busy :
    (arrive (readAt 0x10) (running 4 none Quad.zero)).answers.map (·.2) = [.data 1] ∧
    (arrive (readAt 0x60) (running 4 none Quad.zero)).held = [readAt 0x60] := by decide
/-- A CMD write is accepted by one step and executed by the next (20 R76; 95 P4). -/
theorem test_command_runs_after_acceptance :
    (after (Host.Core.run core 2 { State.reset with
        operand := 0xABCD, agenda := [.host (writeAt 0x08 0x102012), .clock] })).map (·.operand) = some 0xABCD0000#64 := by decide
/-- 95 V1.2: an illegal word faults when it is executed. -/
theorem test_illegal_word_faults :
    (after (step (State.reset.withFetchWord 64 0x100))).map (fun t => (statusWord t, t.faultcmd)) =
      some (0x12#64, 0x100#64) := by decide
/-- 70 R292: `rst_n` aborts a waiting SEEDENT and discards held accesses. -/
theorem test_rst_aborts :
    (after (step { running 0x502 none Quad.zero with waitEnt := true, held := [readAt 0x60], agenda := [.rstLow] })).map
      (fun t => (t.busy, t.waitEnt, t.held, t.rstN)) = some (false, false, [], false) := by decide

/-! ### Witnesses: for every statement with hypotheses, a concrete case that meets them all, clause by clause -/

/-- `s` with an access about to arrive. -/
def asking (a : HostAccess) (s : State) : State := { s with agenda := [.host a] }
/-- `s` faulted, as a command word 0x80010 left it. -/
def faulted (s : State) : State := { s with fault := true, cause := .rotRange, faultcmd := 0x80010 }
/-- An idle block with a context. -/
def idle (A : Algo) (q : Quad) : State := { State.reset with algo := some A, ctx := q }
/-- A waiting SEEDENT #5 with one byte received. -/
def waiting : State := { running 0x502 none Quad.zero with waitEnt := true, ecnt := 1, ebuf := ⟨1, 0, 0, 0⟩ }

theorem witness_DecodeInvertsEncode : (Instr.rotri 64 63).wellFormed = true ∧ (Instr.seed 7).wellFormed = true := by decide
theorem witness_DecodedWordIsTheEncoding :
    decode 0x703#64 = .ok (.seeddraw 7) ∧ decode 0x3F3013#64 = .ok (.rotri 64 63) := by decide
theorem witness_LegalWordsAreTheTablesWords :
    ∃ r ∈ opcodeTable, r.mnemonic = "ROTRI" ∧ r.hits 0x3F3013#64 = true := ⟨⟨"ROTRI", 0x13, maskR⟩, by decide, rfl, by decide⟩
theorem witness_LeftRotationsMoveTheOperandsBits :
    (8 ∈ [8, 16, 32, 64] ∧ 0 < 7 ∧ 7 < 8) ∧ (64 ∈ [8, 16, 32, 64] ∧ 0 < 1 ∧ 1 < 64) ∧ (64 = 0 ∨ 64 ≤ 64) := by decide
theorem witness_RightRotationsMoveTheOperandsBits :
    (16 ∈ [8, 16, 32, 64] ∧ 0 < 15 ∧ 15 < 16) ∧ ((0 = 0 ∨ 32 ≤ 0) ∧ (8 = 0 ∨ 8 ≤ 8)) := by decide
theorem witness_LeftAndRightRotationsAreDual : 32 ∈ [8, 16, 32, 64] ∧ 0 < 31 ∧ 31 < 32 := by decide
theorem witness_LeftRotationsCompose : 8 ∈ [8, 16, 32, 64] ∧ 0 < 7 ∧ 7 < 8 ∧ 0 < 1 ∧ 7 + 1 = 8 ∧ (7 + 2) % 8 ≠ 0 := by decide
theorem witness_NextOnSplitMix64 : (idle .splitmix64 ⟨max, 0, 0, 0⟩).algo = some .splitmix64 := by decide
theorem witness_NextOnXoroshiro128 :
    (idle .xoroshiro128p ⟨1, 2, 0, 0⟩).algo = some .xoroshiro128p ∧ (idle .xoroshiro128pp ⟨1, 2, 0, 0⟩).algo = some .xoroshiro128pp ∧
    (idle .xoroshiro128pdrbg ⟨1, 2, 0, 0⟩).algo = some .xoroshiro128pdrbg := by decide
theorem witness_NextOnXoshiro256 : (idle .xoshiro256pp ⟨1, 2, 3, 4⟩).algo = some .xoshiro256pp := by decide
theorem witness_XoroCoreIsALinearBijection :
    0 < 1 ∧ 1 < 64 ∧ 0 < 63 ∧ 63 < 64 ∧ ((0#64, 1#64) : Word × Word) ≠ (0, 0) := by decide
theorem witness_XoshiroUpdateIsALinearBijection : (⟨0, 0, 0, 1⟩ : Quad) ≠ Quad.zero := by decide
theorem witness_EqualContextsGiveEqualOutputs :
    (∀ i ∈ [Instr.next, .jump, .next], i = .next ∨ i = .jump ∨ i = .ljump) ∧
    (idle .splitmix64 ⟨7, 0, 0, 0⟩).algo ≠ none ∧
    (idle .splitmix64 ⟨7, 0, 0, 0⟩).algo = (running 9 (some .splitmix64) ⟨7, 0, 0, 0⟩).algo ∧
    (idle .splitmix64 ⟨7, 0, 0, 0⟩).ctx = (running 9 (some .splitmix64) ⟨7, 0, 0, 0⟩).ctx := by decide
theorem witness_JumpAccumulatesSelectedTuples :
    State.reset.algo = none ∧ (idle .splitmix64 Quad.zero).algo = some .splitmix64 ∧
    (idle .xoroshiro128pdrbg ⟨1, 2, 0, 0⟩).algo = some .xoroshiro128pdrbg ∧ Algo.xoroshiro128pdrbg ≠ .splitmix64 := by decide
theorem witness_LongJumpAccumulatesSelectedTuples :
    (idle .xoroshiro128pdrbg Quad.zero).algo = some .xoroshiro128pdrbg ∧
    (idle .xoshiro256pp ⟨1, 2, 3, 4⟩).algo = some .xoshiro256pp ∧ Algo.xoshiro256pp ≠ .splitmix64 ∧
    Algo.xoshiro256pp ≠ .xoroshiro128pdrbg := by decide
theorem witness_XoroshiroJumpsEqualTheirSteps : (idle .xoroshiro128pp ⟨1, 2, 0, 0⟩).algo = some .xoroshiro128pp := by decide
theorem witness_XoshiroJumpsEqualTheirSteps : (idle .xoshiro256pp ⟨1, 2, 3, 4⟩).algo = some .xoshiro256pp := by decide
theorem witness_JumpsCommuteWithNext :
    jumpConst .xoroshiro128pdrbg = some [0xBEAC0467EBA5FACB#64, 0xD86B048B86AA9922#64] ∧
    (idle .xoroshiro128p ⟨1, 2, 0, 0⟩).algo = some .xoroshiro128p ∧ ljumpConst .xoroshiro128p ≠ none := by decide
theorem witness_UnitDoubleIsExact : (0x7FF#64 : Word).toNat / 2 ^ 11 = 0 ∧ (0x800#64 : Word).toNat / 2 ^ 11 ≠ 0 := by decide
theorem witness_UnitFloatIsExact :
    (0xFFFFFFFFFF#64 : Word).toNat / 2 ^ 40 = 0 ∧ (0x10000000000#64 : Word).toNat / 2 ^ 40 ≠ 0 := by decide
theorem witness_UnitOutputsLieBelowOne :
    (idle .splitmix64 ⟨7, 0, 0, 0⟩).build.hasUnit = true ∧ (idle .splitmix64 ⟨7, 0, 0, 0⟩).algo ≠ none := by decide
theorem witness_UnitCommandsDrawOnce :
    ((idle .splitmix64 ⟨7, 0, 0, 0⟩).build.hasUnit = true ∧ (idle .splitmix64 ⟨7, 0, 0, 0⟩).algo ≠ none) ∧
    (State.reset.build.hasUnit = true ∧ State.reset.algo = none) ∧
    ({ State.reset with build := { Build.default with hasUnit := false } } : State).build.hasUnit = false := by decide
theorem witness_SeedLoadsTheStagedWords :
    (¬algoUsable Build.default 0 ∧ ¬algoUsable Build.default 6) ∧
    (algoUsable Build.default Algo.xoroshiro128p.code ∧ SeedRejected .xoroshiro128p (Quad.get ⟨0, 0, 5, 0⟩)) ∧
    SeedAccepted .xoroshiro128p (Quad.get ⟨0, 1, 0, 0⟩) ∧ SeedAccepted .splitmix64 (Quad.get Quad.zero) :=
  ⟨by decide, ⟨by decide, by decide, by decide⟩, .inr ⟨1, by decide, by decide⟩, .inl rfl⟩
/-- A running SEEDENT for XOROSHIRO128P with these bytes on consecutive edges and a silent edge after them. -/
def fed (bytes : List Byte) : State :=
  { running 0x202 none Quad.zero with entropy := byteEdges bytes ++ [⟨false, 0, false⟩] }
theorem witness_SeedentAssemblesTheEntropyBytes :
    (∀ bytes ∈ [List.replicate 15 (0 : Byte) ++ [1], List.replicate 16 0],
      (fed bytes).waitEnt = false ∧ (fed bytes).build.hasEntropy = true ∧
      algoUsable (fed bytes).build Algo.xoroshiro128p.code ∧ bytes.length = 8 * Algo.xoroshiro128p.width ∧
      (fed bytes).entropy = byteEdges bytes ++ [⟨false, 0, false⟩]) ∧
    (∀ k, k < Algo.xoroshiro128p.width →
      ((if k = 1 then 0x0100000000000000#64 else 0#64 : Word)).toNat = littleEndianWord (List.replicate 15 0 ++ [1]) k) ∧
    SeedAccepted .xoroshiro128p (fun k => if k = 1 then 0x0100000000000000#64 else 0#64) ∧
    (∀ k, k < Algo.xoroshiro128p.width → (0#64 : Word).toNat = littleEndianWord (List.replicate 16 0) k) ∧
    SeedRejected .xoroshiro128p (fun _ => 0#64) :=
  ⟨by decide, by decide, .inr ⟨1, by decide, by decide⟩, by decide, by decide, fun _ _ => rfl⟩
/-- In the middle of the wait, after 30 more bytes of 31, with a byte acknowledged on the failing edge; and at the start, on the first edge. -/
theorem witness_EntropyFailureIsPrecise :
    let s : State := { waiting with entropy := byteEdges (List.replicate 30 0xAA) ++ ⟨true, 0xAA, true⟩ :: [] }
    let r : State := { running 0x102 none Quad.zero with entropy := byteEdges [] ++ ⟨false, 0, true⟩ :: [] }
    (s.build.hasEntropy = true ∧ algoUsable s.build Algo.xoshiro256pp.code ∧
      (if s.waitEnt then s.ecnt else 0) + (List.replicate 30 (0xAA : Byte)).length < 8 * Algo.xoshiro256pp.width ∧
      s.entropy = byteEdges (List.replicate 30 0xAA) ++ ⟨true, 0xAA, true⟩ :: [] ∧ (⟨true, 0xAA, true⟩ : EntSample).fail = true) ∧
    (r.build.hasEntropy = true ∧ algoUsable r.build Algo.splitmix64.code ∧
      (if r.waitEnt then r.ecnt else 0) + ([] : List Byte).length < 8 * Algo.splitmix64.width ∧
      r.entropy = byteEdges [] ++ ⟨false, 0, true⟩ :: [] ∧ (⟨false, 0, true⟩ : EntSample).fail = true) := by decide
theorem witness_SilentEdgesOnlyDelaySeedent :
    let s : State := { waiting with entropy := byteEdges [0xAA] ++ ⟨false, 0, false⟩ :: [] }
    s.build.hasEntropy = true ∧ algoUsable s.build Algo.xoshiro256pp.code ∧
    (if s.waitEnt then s.ecnt else 0) + [(0xAA : Byte)].length < 8 * Algo.xoshiro256pp.width ∧
    s.entropy = byteEdges [0xAA] ++ ⟨false, 0, false⟩ :: [] ∧ EntSample.silent ⟨false, 0, false⟩ :=
  ⟨by decide, by decide, by decide, by decide, rfl, rfl⟩
theorem witness_SeeddrawDrawsInOrder :
    algoUsable Build.default Algo.splitmix64.code ∧ (idle .splitmix64 Quad.zero).algo = some .splitmix64 ∧
    SeedAccepted .splitmix64 (fun k => (genStep .splitmix64 ((advance .splitmix64)^[k] Quad.zero)).1) ∧
    SeedRejected .xoroshiro128p (fun k => (genStep .xoroshiro128p ((advance .xoroshiro128p)^[k] Quad.zero)).1) :=
  ⟨by decide, rfl, .inl rfl, by decide, by decide⟩
theorem witness_ChainedSeedingNeverFaults :
    (idle .splitmix64 ⟨7, 0, 0, 0⟩).algo = some .splitmix64 ∧
    algoUsable (idle .splitmix64 ⟨7, 0, 0, 0⟩).build Algo.xoshiro256pp.code := by decide
/-- A saved context, and another state of the same build that has its words staged. -/
theorem witness_CheckpointRestoresTheContext :
    tailZero (idle .xoroshiro128pp ⟨1, 2, 0, 0⟩) ∧ NonzeroContext (idle .xoroshiro128pp ⟨1, 2, 0, 0⟩) ∧
    algoBuilt (idle .xoroshiro128pp ⟨1, 2, 0, 0⟩) ∧
    ∀ k, k < Algo.xoroshiro128pp.width →
      ({ State.reset with seed := ⟨1, 2, 9, 9⟩ } : State).seed.get k = (idle .xoroshiro128pp ⟨1, 2, 0, 0⟩).ctx.get k := by
  refine ⟨rfl, fun A h _ => ?_, fun A h => ?_, by decide⟩ <;> cases h <;> decide
theorem witness_CmpstComparesTheLiveWords :
    State.reset.algo = none ∧ (idle .xoshiro256pp ⟨1, 2, 3, 4⟩).algo = some .xoshiro256pp := by decide
theorem witness_NopAndUnseededNext : State.reset.algo = none := rfl
theorem witness_ResetsLeaveTheResetValues : stepAssertsReset { State.reset with agenda := [.rstLow] } := rfl
/-- Each cause a check before the body reports, and the two the body of a seeding command reports. -/
theorem witness_FirstApplicableFaultIsReported :
    decode 0x100#64 = .error .reservedBitSet ∧
    headFault .udbl { State.reset with build := { Build.default with hasUnit := false } } = some .featureAbsent ∧
    headFault (.seeddraw 6) State.reset = some .illegalAlgo ∧ headFault .next State.reset = some .notSeeded ∧
    headFault .ljump (idle .xoroshiro128pdrbg ⟨1, 0, 0, 0⟩) = some .unsupportedOp ∧
    headFault (.rotl 8 8) State.reset = some .rotRange ∧
    (headFault (.seed 2) State.reset = none ∧
      exec (.seed 2) State.reset = .next (takeFault .zeroSeed State.reset)) ∧
    (headFault (.seedent 2) State.reset = none ∧
      (after (exec (.seedent 2) { State.reset with entropy := [⟨false, 0, true⟩] })).map (·.cause) = some .entropyFail) := by
  refine ⟨by decide, by decide, by decide, by decide, by decide, by decide, ⟨by decide, rfl⟩, by decide, by decide⟩
/-- With a turn first on the agenda, and with nothing on it. -/
theorem witness_IllegalWordsFault :
    (∀ r ∈ opcodeTable, r.hits (running 0x100 none Quad.zero).pend = false) ∧
    (running 0x100 none Quad.zero).rstN = true ∧ (running 0x100 none Quad.zero).busy = true ∧
    turnIsNext (running 0x100 none Quad.zero) [] ∧
    turnIsNext { running 0x100 none Quad.zero with agenda := [.clock, .rstLow] } [.rstLow] :=
  ⟨by decide, rfl, rfl, .inr ⟨rfl, rfl⟩, .inl rfl⟩
theorem witness_FaultsArePrecise :
    exec .next (running 4 none Quad.zero) = .next (takeFault .notSeeded (running 4 none Quad.zero)) ∧
    (running 4 none Quad.zero).fault = false := ⟨rfl, rfl⟩
/-- A faulted block between commands, and one that runs SRESET. -/
theorem witness_FirstFaultStaysUntilReset :
    (faultedRunsOnlyReset (faulted State.reset) ∧ step (faulted State.reset) = .next (faulted State.reset)) ∧
    (faultedRunsOnlyReset (faulted (running 0xFF none Quad.zero)) ∧
      step (faulted (running 0xFF none Quad.zero)) = .next State.reset) :=
  ⟨⟨fun h => (by cases h), rfl⟩, fun _ _ => rfl, rfl⟩
theorem witness_FaultedBlockRefusesCommands :
    ∀ a ∈ [writeAt 0x08 4, writeAt 0x08 0xFF, writeAt 0x20 1, writeAt 0x38 1, writeAt 0x68 1, readAt 0x00, readAt 0x68],
      (faulted State.reset).fault = true ∧ (faulted State.reset).busy = false ∧
      accessIsNext (asking a (faulted State.reset)) a [] ∧ a.addr = State.reset.build.baseAddr + a.addr ∧ a.size = 8 := by
  intro a ha
  refine ⟨rfl, rfl, ⟨rfl, .inr rfl, rfl⟩, (Nat.zero_add _).symm, ?_⟩
  revert a
  decide
theorem witness_HostReadsReturnTheRegister :
    (∀ a ∈ [readAt 0x00, readAt 0x68, readAt 0x70, readAt 0xF8], accessIsNext (asking a State.reset) a [] ∧
      a.addr = State.reset.build.baseAddr + a.addr) ∧
    (∀ a ∈ [readAt 0x10, readAt 0x08, readAt 0x68], accessIsNext (asking a (running 4 none Quad.zero)) a []) :=
  ⟨fun _ _ => ⟨⟨rfl, .inr rfl, rfl⟩, (Nat.zero_add _).symm⟩, fun _ _ => ⟨rfl, .inl rfl, rfl⟩⟩
theorem witness_HostWritesStoreOrIssue :
    (∀ a ∈ [writeAt 0x08 4, writeAt 0x20 1, writeAt 0x38 1, writeAt 0x68 1, writeAt 0x60 1, writeAt 0x70 1],
      accessIsNext (asking a State.reset) a []) ∧
    (0x60 ∈ readOnlyOffsets ∧ 0x08 ∉ readOnlyOffsets ∧ 0x38 ∉ readOnlyOffsets ∧ 0x68 ∉ readOnlyOffsets) ∧
    accessIsNext (asking (writeAt 0x68 1) (running 4 none Quad.zero)) (writeAt 0x68 1) [] ∧
    accessIsNext (asking (writeAt 0x08 4) (faulted State.reset)) (writeAt 0x08 4) [] :=
  ⟨fun _ _ => ⟨rfl, .inr rfl, rfl⟩, by decide, ⟨rfl, .inl rfl, rfl⟩, rfl, .inr rfl, rfl⟩
/-- The wrong size, an unaligned offset, a reserved offset, a missing strobe, and a read-only register; also while BUSY. -/
theorem witness_BusErrorsChangeNothing :
    (⟨0x60, 4, .read⟩ : HostAccess).size ≠ 8 ∧ 0x61 % 8 ≠ 0 ∧ 0x70 ≤ 0x70 ∧
    (∃ strobes v, (⟨0x20, 8, .write 0x7F 1⟩ : HostAccess).op = .write strobes v ∧ strobes ≠ 0xFF) ∧
    (∃ strobes v, (writeAt 0x18 1).op = .write strobes v ∧ 0x18 ∈ readOnlyOffsets) ∧
    accessIsNext (asking (writeAt 0x18 1) (running 4 none Quad.zero)) (writeAt 0x18 1) [] :=
  ⟨by decide, by decide, by decide, ⟨0x7F, 1, rfl, by decide⟩, ⟨0xFF, 1, rfl, by decide⟩, rfl, .inl rfl, rfl⟩
/-- A read of OUT behind NEXT, and a write to CMD behind it. -/
theorem witness_ReadBehindACommandSeesItsResult :
    ∀ a ∈ [readAt 0x60, writeAt 0x08 4],
      let s : State := { running 4 (some .splitmix64) ⟨max, 0, 0, 0⟩ with agenda := [.host a, .clock, .clock] }
      s.rstN = true ∧ s.busy = true ∧ s.held = [] ∧ decode s.pend = .ok .next ∧ a.addr = s.build.baseAddr + a.addr ∧ a.size = 8 ∧
      holdable a.addr a.op ∧ ∃ t, exec .next { s with agenda := [.clock] } = .next t ∧ t.busy = false := by
  intro a ha
  simp only [List.mem_cons, List.not_mem_nil, or_false] at ha
  rcases ha with rfl | rfl
  · exact ⟨rfl, rfl, rfl, by decide, rfl, rfl, ⟨by decide, by decide, .inl ⟨rfl, by decide, by decide⟩⟩, _, rfl, rfl⟩
  · exact ⟨rfl, rfl, rfl, by decide, rfl, rfl, ⟨by decide, by decide, .inr ⟨4, rfl, by decide⟩⟩, _, rfl, rfl⟩
/-- A write to SEED3 held before a read of OUT, with a turn next, with nothing on the agenda, and with a later access on it. -/
theorem witness_HeldAccessesArePerformedInOrder :
    let s : State := { State.reset with held := [writeAt 0x38 1, readAt 0x60] }
    s.rstN = true ∧ s.busy = false ∧ s.held = writeAt 0x38 1 :: [readAt 0x60] ∧
    (writeAt 0x38 1).addr = s.build.baseAddr + 0x38 ∧ (writeAt 0x38 1).size = 8 ∧ holdable 0x38 (writeAt 0x38 1).op ∧
    turnIsNext s [] ∧ turnIsNext { s with agenda := [.clock] } [] ∧
    ({ s with agenda := [.host (readAt 0x10)] } : State).agenda = .host (readAt 0x10) :: [] ∧
    (running 4 none Quad.zero).busy = true ∧ turnIsNext (running 4 none Quad.zero) [] ∧
    ∃ t, step (running 4 none Quad.zero) = .next t :=
  ⟨rfl, rfl, rfl, rfl, rfl, ⟨by decide, by decide, .inr ⟨1, rfl, by decide⟩⟩, .inr ⟨rfl, rfl⟩, .inl rfl, rfl, rfl, .inr ⟨rfl, rfl⟩, _, rfl⟩
/-- 20 R82, R83: a write to SEED3 held behind a command is performed first, then the held read of SEED3, which sees it. -/
theorem test_held_accesses_in_order :
    (after (Host.Core.run core 2 { State.reset with held := [writeAt 0x38 1, readAt 0x38] })).map
      (fun t => (t.answers.map (·.2), t.held)) = some ([.data 1, .okay], []) := by decide
theorem witness_RegisterBytesAreLittleEndian : 0x68 < 0x70 ∧ 0x68 % 8 = 0 ∧ 7 < 8 := by decide
theorem witness_StepRunsTheDecodedCommand :
    (State.reset.withFetchWord 64 0x3F3013).rstN = true ∧ (State.reset.withFetchWord 64 0x3F3013).busy = true ∧
    decode (State.reset.withFetchWord 64 0x3F3013).pend = .ok (.rotri 64 63) ∧
    (State.reset.withFetchWord 64 0x3F3013).agenda = [.clock] ∧ (running 4 none Quad.zero).agenda = [] := by decide
theorem witness_ResetAbortsTheCommand : ({ waiting with agenda := [.rstLow, .clock] } : State).agenda = .rstLow :: [.clock] := rfl
/-- A waiting SEEDENT, a port that does not answer, and on the agenda turns, a read of STATUS and one of OUT. -/
theorem witness_StarvedSeedentWaitsForEver :
    let s : State := { waiting with
      entropy := [⟨false, 0, false⟩], agenda := [.clock, .host (readAt 0x10), .host (readAt 0x60), .clock] }
    s.rstN = true ∧ s.busy = true ∧ s.waitEnt = true ∧ waitOnlySeedent s ∧ (∀ e ∈ s.entropy, e.silent) ∧
      ∀ x ∈ s.agenda, x ≠ .rstLow ∧ x ≠ .rstHigh :=
  ⟨rfl, rfl, rfl, fun _ => ⟨5, .xoshiro256pp, by decide, rfl, by decide, by decide⟩,
    fun e he => by simp at he; subst he; exact ⟨rfl, rfl⟩, by decide⟩
/-- A step that changes OUT and S, one that changes EQ, one that writes SEED3, one that writes OPERAND, one that rotates it. -/
theorem witness_OnlyTheNamedEventsChangeARegister :
    (after (step (running 4 (some .splitmix64) ⟨max, 0, 0, 0⟩))).map (fun t => (t.out == 0, t.ctx == ⟨max, 0, 0, 0⟩)) =
      some (false, false) ∧
    (after (step (running 9 (some .splitmix64) Quad.zero))).map (·.eq) = some true ∧
    (after (step (asking (writeAt 0x38 1) State.reset))).map (·.seed) = some ⟨0, 0, 0, 1⟩ ∧
    (after (step (asking (writeAt 0x68 1) State.reset))).map (·.operand) = some 1 ∧
    (after (step (rotating 0x3F3013 1))).map (·.operand) = some 2 ∧
    ¬stepAssertsReset (rotating 0x3F3013 1) := ⟨by decide, by decide, by decide, by decide, by decide, by simp [stepAssertsReset, rotating, State.reset]⟩
theorem witness_OnlySeedingSetsTheAlgorithm :
    (after (step (running 0x101 none Quad.zero))).map (·.algo) = some (some .splitmix64) ∧
    (after (step (running 0xFF (some .splitmix64) Quad.zero))).map (·.algo) = some none := by decide
theorem witness_NoStepChangesTheBuild : step State.reset = .next State.reset := rfl
theorem witness_OnlyAnAccessDuringResetStops :
    ({ asking (readAt 0) State.reset with rstN := false } : State).rstN = false ∧
    step { asking (readAt 0) State.reset with rstN := false } = .fault .accessDuringReset := ⟨rfl, rfl⟩
theorem witness_RunsOfAWellBehavedPlatformNeverStop :
    platformKeepsReset true [.host (readAt 0), .rstLow, .clock, .rstHigh, .host (writeAt 0x08 4), .clock] = true := by decide
/-- A running SEEDENT that waits is a consistent state of a real run. -/
theorem witness_StepKeepsTheBlockConsistent : Inv waiting ∧ ∃ t, step waiting = .next t :=
  ⟨⟨rfl, fun A h => (by cases h), ⟨fun _ => ⟨rfl, rfl⟩, fun h => (by cases h)⟩, fun h => (by cases h),
    fun _ => ⟨5, .xoshiro256pp, by decide, rfl, by decide, by decide⟩, fun _ h => (by cases h), fun h => (by cases h),
    fun a h => (by cases h)⟩, _, rfl⟩
theorem witness_StepKeepsTheContextNonzero :
    NonzeroContext (running 5 (some .xoroshiro128pp) ⟨1, 2, 0, 0⟩) ∧
    ∃ t, step (running 5 (some .xoroshiro128pp) ⟨1, 2, 0, 0⟩) = .next t :=
  ⟨fun A h _ => (by cases h; decide), _, rfl⟩

end Sys2Proof.Tests
end

section
/-! ### The fields of STATUS and ID as digits of one number (10 R33, R35) -/

namespace Sys2Proof.Machine

/-- A field put above everything a word holds adds its value there. -/
theorem toNat_or_field {x : Word} {v lo : Nat} (hx : x.toNat < 2 ^ lo) (hv : 2 ^ lo * v < 2 ^ 64) :
    (x ||| field v lo).toNat = 2 ^ lo * v + x.toNat := by
  have hv' : v < 2 ^ 64 := by nlinarith [Nat.one_le_two_pow (n := lo)]
  rw [field, BitVec.toNat_or, BitVec.toNat_shiftLeft, BitVec.toNat_ofNat, Nat.mod_eq_of_lt hv', Nat.shiftLeft_eq,
    Nat.mul_comm v, Nat.mod_eq_of_lt hv, Nat.two_pow_add_eq_or_of_lt hx, Nat.or_comm]

theorem toNat_field_zero {v : Nat} (hv : v < 2 ^ 64) : (field v 0).toNat = v := by
  simpa [field] using hv

theorem flag_lt (b : Bool) : flag b < 2 := by cases b <;> decide

theorem causeCode_lt (c : Cause) : causeCode c < 16 := by cases c <;> decide

theorem algoCode_lt (A : Option Algo) : algoCode A < 8 := by rcases A with _ | A <;> [decide; cases A <;> decide]

theorem statusWord_toNat (s : State) :
    (statusWord s).toNat = 2 ^ 11 * flag s.waitEnt + (2 ^ 8 * algoCode s.algo + (2 ^ 4 * causeCode s.cause +
      (2 ^ 2 * flag s.eq + (2 ^ 1 * flag s.fault + flag s.busy)))) := by
  have hb := flag_lt s.busy
  have hf := flag_lt s.fault
  have he := flag_lt s.eq
  have hw := flag_lt s.waitEnt
  have hc := causeCode_lt s.cause
  have ha := algoCode_lt s.algo
  have h0 := toNat_field_zero (v := flag s.busy) (by omega)
  have h1 := toNat_or_field (x := field (flag s.busy) 0) (v := flag s.fault) (lo := 1) (by omega) (by omega)
  have h2 := toNat_or_field (v := flag s.eq) (lo := 2) (h1.trans_lt (by omega)) (by omega)
  have h4 := toNat_or_field (v := causeCode s.cause) (lo := 4) (h2.trans_lt (by omega)) (by omega)
  have h8 := toNat_or_field (v := algoCode s.algo) (lo := 8) (h4.trans_lt (by omega)) (by omega)
  have h11 := toNat_or_field (v := flag s.waitEnt) (lo := 11) (h8.trans_lt (by omega)) (by omega)
  rw [statusWord, h11, h8, h4, h2, h1, h0]

theorem idWord_toNat (b : Build) :
    (idWord b).toNat = 2 ^ 54 * flag b.hasUnit + (2 ^ 53 * flag b.hasEntropy + (2 ^ 48 * b.hasAlgo.toNat +
      (2 ^ 32 + 0x44524247))) := by
  have hu := flag_lt b.hasUnit
  have he := flag_lt b.hasEntropy
  have ha := b.hasAlgo.isLt
  have h0 := toNat_field_zero (v := 0x44524247) (by omega)
  have h32 := toNat_or_field (x := field 0x44524247 0) (v := 0x01) (lo := 32) (by omega) (by omega)
  have h40 := toNat_or_field (v := 0x00) (lo := 40) (h32.trans_lt (by omega)) (by omega)
  have h48 := toNat_or_field (v := b.hasAlgo.toNat) (lo := 48) (h40.trans_lt (by omega)) (by omega)
  have h53 := toNat_or_field (v := flag b.hasEntropy) (lo := 53) (h48.trans_lt (by omega)) (by omega)
  have h54 := toNat_or_field (v := flag b.hasUnit) (lo := 54) (h53.trans_lt (by omega)) (by omega)
  rw [idWord, h54, h53, h48, h40, h32, h0]
  omega

/-- A bit of a word that holds a flag, by the word's number. -/
theorem getLsbD_eq_flag {x : Word} {i : Nat} {b : Bool} (h : x.toNat / 2 ^ i % 2 = flag b) : x.getLsbD i = b := by
  rw [BitVec.getLsbD, Nat.testBit_eq_decide_div_mod_eq, h]
  cases b <;> rfl

theorem toNat_extractLsb'_div (x : Word) (lo len : Nat) : (x.extractLsb' lo len).toNat = x.toNat / 2 ^ lo % 2 ^ len := by
  rw [BitVec.extractLsb'_toNat, Nat.shiftRight_eq_div_pow]

theorem extractLsb'_eq_of_div {x : Word} {lo len : Nat} {v : BitVec len} (h : x.toNat / 2 ^ lo % 2 ^ len = v.toNat) :
    x.extractLsb' lo len = v :=
  BitVec.eq_of_toNat_eq ((toNat_extractLsb'_div x lo len).trans h)

end Sys2Proof.Machine

namespace Sys2Proof.Proofs
open Sys2Proof.Machine

/-- Settles O46: STATUS is one number whose digits are the fields. -/
theorem statusShowsTheFields : Obligations.StatusShowsTheFields := by
  unfold Obligations.StatusShowsTheFields
  intro s
  have hn := statusWord_toNat s
  have hb := flag_lt s.busy
  have hf := flag_lt s.fault
  have he := flag_lt s.eq
  have hw := flag_lt s.waitEnt
  have hc := causeCode_lt s.cause
  have ha := algoCode_lt s.algo
  have h3 : flag false = 0 := rfl
  refine ⟨getLsbD_eq_flag (by omega), getLsbD_eq_flag (by omega), getLsbD_eq_flag (by omega),
    getLsbD_eq_flag (by omega), ?_, ?_, getLsbD_eq_flag (by omega), by omega⟩
  · rw [toNat_extractLsb'_div]
    omega
  · rw [toNat_extractLsb'_div]
    omega

/-- Settles O47: ID is one number whose digits are the fields. -/
theorem idShowsTheBuild : Obligations.IdShowsTheBuild := by
  unfold Obligations.IdShowsTheBuild
  refine ⟨fun b => ?_, by decide⟩
  have hn := idWord_toNat b
  have hu := flag_lt b.hasUnit
  have he := flag_lt b.hasEntropy
  have ha := b.hasAlgo.isLt
  refine ⟨extractLsb'_eq_of_div ?_, extractLsb'_eq_of_div ?_, extractLsb'_eq_of_div ?_, extractLsb'_eq_of_div ?_,
    getLsbD_eq_flag (by omega), getLsbD_eq_flag (by omega), extractLsb'_eq_of_div ?_⟩
  · change _ = 0x44524247
    omega
  · change _ = 1
    omega
  · change _ = 0
    omega
  · omega
  · change _ = 0
    omega

end Sys2Proof.Proofs
end

section
/-! ### What a command leaves, by the command -/

namespace Sys2Proof.Machine

/-- The next state of a command, with the command it takes to reach it: finer than `CommandEnds`, which leaves open which command changes
which register. -/
inductive Effect (i : Instr) (s : State) : State → Prop
  | faulted (k : Cause) (e : List EntSample) (hk : k ≠ .noFault) : Effect i s (takeFault k { s with entropy := e })
  | nothing (hi : i = .nop) : Effect i s (complete s)
  | drawn (f : Word → Word) (A : Algo) (hi : i.mnemonic ∈ ["NEXT", "UDBL", "UFLT"]) (hA : s.algo = some A) :
      Effect i s (complete (drawTo f A s))
  | jumped (A : Algo) (K : List Word) (hi : i.mnemonic ∈ ["JUMP", "LJUMP"]) (hA : s.algo = some A)
      (hK : jumpConst A = some K ∨ ljumpConst A = some K) : Effect i s (complete { s with ctx := jumpWith A K s.ctx })
  | compared (q : Bool) (hi : i.mnemonic ∈ ["CMPST"]) : Effect i s (complete { s with eq := q })
  | rotated (v : Word) (hi : i.mnemonic ∈ ["ROTL", "ROTR"]) : Effect i s (complete { s with out := v })
  | rotatedInPlace (v : Word) (hi : i.mnemonic ∈ ["ROTLI", "ROTRI"]) : Effect i s (complete { s with operand := v })
  | seeded (A : Algo) (w : Quad) (e : List EntSample) (hi : i.mnemonic ∈ ["SEED", "SEEDENT", "SEEDDRAW"])
      (hf : algoField i = some A.code) (hg : hasGen s.build A = true) (hw : zeroSeeded A w = false) :
      Effect i s (complete { s with algo := some A, ctx := A.merge w Quad.zero, entropy := e })
  | reset (hi : i = .sreset) : Effect i s (softReset s)
  | waits (a : Nat) (A : Algo) (n : Nat) (b : Quad) (e : List EntSample) (hi : i = .seedent a)
      (hE : s.build.hasEntropy = true) (hA : target s.build a = some A) (hn : n < 8 * A.width) :
      Effect i s { s with waitEnt := true, ecnt := n, ebuf := b, entropy := e }

variable {i : Instr} {s t : State}

theorem effect_of_raise {k : Cause} (hk : k ≠ .noFault) (h : raise k s = .next t) : Effect i s t := by
  cases h
  exact .faulted k s.entropy hk

theorem effect_of_commit {A : Algo} {a : Nat} {w : Quad} (hi : i.mnemonic ∈ ["SEED", "SEEDENT", "SEEDDRAW"])
    (hf : algoField i = some a) (hA : target s.build a = some A) (h : commit A w s = .next t) : Effect i s t := by
  obtain ⟨rfl, hg⟩ := target_some hA
  obtain ⟨_, hc⟩ | ⟨hw, hc⟩ := commit_cases A w s
  · exact effect_of_raise (by decide) (hc.symm.trans h)
  · cases hc.symm.trans h
    exact .seeded A w s.entropy hi hf hg hw

theorem effect_of_jumpBy {K : Algo → Option (List Word)} (hi : i.mnemonic ∈ ["JUMP", "LJUMP"])
    (hK : K = jumpConst ∨ K = ljumpConst) (h : jumpBy K s = .next t) : Effect i s t := by
  unfold jumpBy at h
  split at h
  · exact effect_of_raise (by decide) h
  · split at h
    · exact effect_of_raise (by decide) h
    · cases h
      rename_i A hA _ ks hks
      refine .jumped A ks hi hA ?_
      obtain rfl | rfl := hK
      · exact .inl hks
      · exact .inr hks

/-- A draw, whose output goes to OUT through `f`. -/
theorem effect_of_draw (f : Word → Word) (hi : i.mnemonic ∈ ["NEXT", "UDBL", "UFLT"])
    (h : (match s.algo with | none => raise .notSeeded s | some A => done (drawTo f A s)) = .next t) : Effect i s t := by
  split at h
  · exact effect_of_raise (by decide) h
  · cases h
    exact .drawn f _ hi ‹_›

/-- A command whose shift amount is checked first (40 R131). -/
theorem effect_of_ranged {c : Bool} {u : State} (hu : Effect i s (complete u))
    (h : (if c then raise .rotRange s else done u) = .next t) : Effect i s t := by
  split at h
  · exact effect_of_raise (by decide) h
  · cases h
    exact hu

theorem effect_of_seedent {a : Nat} (h : execSeedent a s = .next t) : Effect (.seedent a) s t := by
  unfold execSeedent at h
  split at h
  · rename_i hE
    split at h
    · exact effect_of_raise (by decide) h
    · rename_i A hA
      rw [beginWait_eq, seedFromEntropy] at h
      split at h
      · obtain ⟨hcode, hg⟩ := target_some hA
        rename_i buf rest _
        obtain ⟨_, hc⟩ | ⟨hw, hc⟩ := commit_cases A buf _
        · cases hc.symm.trans h
          exact .faulted .zeroSeed rest (by decide)
        · cases hc.symm.trans h
          exact .seeded A buf rest (by simp [Instr.mnemonic]) (congrArg some hcode.symm) hg hw
      · cases h
        exact .faulted .entropyFail _ (by decide)
      · cases h
        exact .waits a A _ _ _ rfl hE hA (gather_waiting ‹_›)
  · exact effect_of_raise (by decide) h

/-- Every next state of a command is one of `Effect`. -/
theorem exec_effect (h : exec i s = .next t) : Effect i s t := by
  cases i <;> simp only [exec] at h
  case nop => cases h; exact .nothing rfl
  case seed a =>
    unfold execSeed at h
    split at h
    · exact effect_of_raise (by decide) h
    · exact effect_of_commit (by simp [Instr.mnemonic]) rfl ‹_› h
  case seedent a => exact effect_of_seedent h
  case seeddraw a =>
    unfold execSeeddraw at h
    split at h
    · exact effect_of_raise (by decide) h
    · split at h
      · exact effect_of_raise (by decide) h
      · exact effect_of_commit (by simp [Instr.mnemonic]) rfl ‹_› h
  case next => exact effect_of_draw _ (by decide) h
  case jump => exact effect_of_jumpBy (by decide) (.inl rfl) h
  case ljump => exact effect_of_jumpBy (by decide) (.inr rfl) h
  case udbl =>
    unfold execUdbl at h
    split at h
    · exact effect_of_draw _ (by decide) h
    · exact effect_of_raise (by decide) h
  case uflt =>
    unfold execUflt at h
    split at h
    · exact effect_of_draw _ (by decide) h
    · exact effect_of_raise (by decide) h
  case cmpst =>
    unfold execCmpst at h
    split at h
    · exact effect_of_raise (by decide) h
    · cases h; exact .compared _ (by decide)
  case rotl w n => exact effect_of_ranged (.rotated _ (by simp [Instr.mnemonic])) h
  case rotr w n => exact effect_of_ranged (.rotated _ (by simp [Instr.mnemonic])) h
  case rotli w n => exact effect_of_ranged (.rotatedInPlace _ (by simp [Instr.mnemonic])) h
  case rotri w n => exact effect_of_ranged (.rotatedInPlace _ (by simp [Instr.mnemonic])) h
  case sreset => cases h; exact .reset rfl

/-! ### What a step leaves -/

/-- The next state of a step: the engine's, an access's that arrives or is released, or that of an input with no access. -/
inductive StepEffect (s : State) : State → Prop
  | illegal (rest : List Input) : StepEffect s (takeFault .illegalOpcode { s with agenda := rest })
  | command (i : Instr) (rest : List Input) (t : State) (hi : stepRuns s i) (h : Effect i { s with agenda := rest } t) :
      StepEffect s t
  | access (a : HostAccess) (rest : List Input) (held : List HostAccess) (t : State) (hr : s.rstN = true)
      (hh : ∀ b ∈ held, b ∈ s.held) (h : Arrival a { s with agenda := rest, held := held } t) : StepEffect s t
  | idle (rest : List Input) : StepEffect s { s with agenda := rest }
  | resetOn (rest : List Input) (h : stepAssertsReset s) : StepEffect s (assertReset { s with agenda := rest })
  | resetOff (rest : List Input) : StepEffect s { s with agenda := rest, rstN := true }

theorem releaseHeld_effect (rest : List Input) (hr : s.rstN = true) : StepEffect s (releaseHeld { s with agenda := rest }) := by
  obtain ⟨_, h⟩ | ⟨a, held, hh, h⟩ := releaseHeld_cases { s with agenda := rest }
  · rw [h]
    exact .idle rest
  · rw [h]
    refine .access a rest held _ hr ?_ (arrive_arrival a _)
    intro b hb
    rw [show s.held = a :: held from hh]
    exact List.mem_cons_of_mem a hb

theorem runCommand_effect {rest : List Input} (ha : s.agenda = .clock :: rest ∨ (s.agenda = [] ∧ rest = []))
    (hr : s.rstN = true) (hb : s.busy = true) (h : runCommand { s with agenda := rest } = .next t) : StepEffect s t := by
  obtain ⟨_, hc⟩ | ⟨i, u, hi, hc, he, _⟩ := runCommand_cases { s with agenda := rest }
  · cases hc.symm.trans h
    exact .illegal rest
  · cases hc.symm.trans h
    refine .command i rest t ⟨hr, hb, ?_, hi⟩ (exec_effect he)
    obtain ha | ⟨ha, _⟩ := ha <;> simp [ha]

/-- Every next state of a step is one of `StepEffect`. -/
theorem step_effect (h : step s = .next t) : StepEffect s t := by
  have m := step_move s
  generalize step s = o at m h
  cases m with
  | command rest ha hr hb => exact runCommand_effect ha hr hb h
  | release rest ha hr hb => cases h; exact releaseHeld_effect rest hr
  | still rest ha hr => cases h; exact .idle rest
  | access a rest ha hr hb => cases h; exact .access a rest s.held _ hr (fun _ hb => hb) (arrive_arrival a _)
  | first a rest ha hr hb hh => cases h; exact releaseHeld_effect s.agenda hr
  | stop a rest ha hr => cases h
  | resetOn rest ha => cases h; exact .resetOn rest (by simp [stepAssertsReset, ha])
  | resetOff rest ha => cases h; exact .resetOff rest

end Sys2Proof.Machine
end

section
/-! ### The registers a step leaves alone -/

namespace Sys2Proof.Machine

variable {i : Instr} {a : HostAccess} {s t : State}

theorem Effect.sameOutside (h : Effect i s t) : SameOutside s t := by
  cases h <;> exact ⟨rfl, rfl, rfl, rfl, rfl⟩

theorem Effect.out_eq_or (h : Effect i s t) :
    t.out = s.out ∨ i.mnemonic ∈ ["NEXT", "UDBL", "UFLT", "ROTL", "ROTR", "SRESET"] := by
  cases h with
  | drawn f A hi hA => exact .inr (List.Sublist.mem hi (by decide))
  | rotated v hi => exact .inr (List.Sublist.mem hi (by decide))
  | reset hi => exact .inr (by simp [hi, Instr.mnemonic])
  | _ => exact .inl rfl

theorem Effect.eq_eq_or (h : Effect i s t) : t.eq = s.eq ∨ i.mnemonic ∈ ["CMPST", "SRESET"] := by
  cases h with
  | compared q hi => exact .inr (List.Sublist.mem hi (by decide))
  | reset hi => exact .inr (by simp [hi, Instr.mnemonic])
  | _ => exact .inl rfl

theorem Effect.ctx_eq_or (h : Effect i s t) :
    t.ctx = s.ctx ∨
      i.mnemonic ∈ ["SEED", "SEEDENT", "SEEDDRAW", "NEXT", "JUMP", "LJUMP", "UDBL", "UFLT", "SRESET"] := by
  cases h with
  | drawn f A hi hA => exact .inr (List.Sublist.mem hi (by decide))
  | jumped A K hi hA hK => exact .inr (List.Sublist.mem hi (by decide))
  | seeded A w e hi hf hg hw => exact .inr (List.Sublist.mem hi (by decide))
  | reset hi => exact .inr (by simp [hi, Instr.mnemonic])
  | _ => exact .inl rfl

theorem Effect.seed_eq_or (h : Effect i s t) : t.seed = s.seed ∨ i = .sreset := by
  cases h with
  | reset hi => exact .inr hi
  | _ => exact .inl rfl

theorem Effect.operand_eq_or (h : Effect i s t) : t.operand = s.operand ∨ i.mnemonic ∈ ["ROTLI", "ROTRI", "SRESET"] := by
  cases h with
  | rotatedInPlace v hi => exact .inr (List.Sublist.mem hi (by decide))
  | reset hi => exact .inr (by simp [hi, Instr.mnemonic])
  | _ => exact .inl rfl

/-- ALGO is changed by a seeding command that completes, and by SRESET. -/
theorem Effect.algo_eq_or (h : Effect i s t) :
    t.algo = s.algo ∨ (t.algo = none ∧ i = .sreset) ∨
      ∃ A, algoField i = some A.code ∧ t.algo = some A ∧ t.fault = s.fault ∧ t.busy = false := by
  cases h with
  | seeded A w e hi hf hg hw => exact .inr (.inr ⟨A, hf, rfl, rfl, rfl⟩)
  | reset hi => exact .inr (.inl ⟨rfl, hi⟩)
  | _ => exact .inl rfl

/-- An access that arrives changes no data register, or it is a host write of a word of SEED or of OPERAND. -/
theorem Arrival.data (h : Arrival a s t) :
    SameData s t ∨
    (∃ k v, k < 4 ∧ stepStores s t (0x20 + 8 * k) v ∧ SameData { s with seed := s.seed.set k v } t) ∨
    ∃ v, stepStores s t 0x68 v ∧ SameData { s with operand := v } t := by
  cases h with
  | seeded off k v ho hq hb =>
    obtain ⟨hreg, hsize, hop, _⟩ := requestAt_write hq
    obtain rfl := regAt_some hreg
    exact .inr (.inl ⟨k, v, k.isLt, ⟨hb, a, (windowOffset_some ho).1, hsize, hop, rfl⟩, rfl, rfl, rfl, rfl, rfl, rfl⟩)
  | operand off v ho hq hb =>
    obtain ⟨hreg, hsize, hop, _⟩ := requestAt_write hq
    obtain rfl := regAt_some hreg
    exact .inr (.inr ⟨v, ⟨hb, a, (windowOffset_some ho).1, hsize, hop, rfl⟩, rfl, rfl, rfl, rfl, rfl, rfl⟩)
  | _ => exact .inl ⟨rfl, rfl, rfl, rfl, rfl, rfl⟩

theorem Arrival.build_eq (h : Arrival a s t) : t.build = s.build := by
  cases h <;> rfl

/-- The data registers change only by the assertion of `rst_n`, by a command, or by a host write. -/
theorem StepEffect.data (h : StepEffect s t) :
    (stepAssertsReset s ∧ t.algo = none) ∨ SameData s t ∨
    (∃ i rest, stepRuns s i ∧ Effect i { s with agenda := rest } t) ∨
    (∃ k v, k < 4 ∧ stepStores s t (0x20 + 8 * k) v ∧ SameData { s with seed := s.seed.set k v } t) ∨
    ∃ v, stepStores s t 0x68 v ∧ SameData { s with operand := v } t := by
  cases h with
  | resetOn rest h => exact .inl ⟨h, rfl⟩
  | command i rest _ hi he => exact .inr (.inr (.inl ⟨i, rest, hi, he⟩))
  | access a rest held _ _ _ h => exact .inr (h.data.imp_right .inr)
  | _ => exact .inr (.inl ⟨rfl, rfl, rfl, rfl, rfl, rfl⟩)

end Sys2Proof.Machine

namespace Sys2Proof.Proofs
open Sys2Proof.Machine

/-- Settles O54: neither a command, nor an access, nor a reset writes the build. -/
theorem noStepChangesTheBuild : Obligations.NoStepChangesTheBuild := by
  unfold Obligations.NoStepChangesTheBuild
  intro s t h
  cases step_effect h with
  | command i rest _ _ he => exact he.sameOutside.1
  | access a rest held _ _ _ ha => exact ha.build_eq
  | _ => rfl

/-- Settles O53, by the command that changes ALGO (`Effect.algo_eq_or`). -/
theorem onlySeedingSetsTheAlgorithm : Obligations.OnlySeedingSetsTheAlgorithm := by
  unfold Obligations.OnlySeedingSetsTheAlgorithm
  intro s t h hne
  obtain ⟨hr, hn⟩ | hd | ⟨i, rest, hi, he⟩ | ⟨k, v, -, -, hd⟩ | ⟨v, -, hd⟩ := (step_effect h).data
  · exact .inl ⟨hn, .inr hr⟩
  · exact absurd hd.1 hne
  · obtain he | ⟨hn, rfl⟩ | ⟨A, hA⟩ := he.algo_eq_or
    · exact absurd he hne
    · exact .inl ⟨hn, .inl hi⟩
    · exact .inr ⟨i, A, hi, hA⟩
  · exact absurd hd.1 hne
  · exact absurd hd.1 hne

/-- Settles O52, register by register. -/
theorem onlyTheNamedEventsChangeARegister : Obligations.OnlyTheNamedEventsChangeARegister := by
  unfold Obligations.OnlyTheNamedEventsChangeARegister
  intro s t h hr
  obtain ⟨hn, _⟩ | ⟨_, hctx, hseed, hoperand, hout, heq⟩ | ⟨i, rest, hi, he⟩ | ⟨k, v, hk, hst, _, hctx, hseed, hoperand, hout, heq⟩ |
    ⟨v, hst, _, hctx, hseed, hoperand, hout, heq⟩ := (step_effect h).data
  · exact absurd hn hr
  · exact ⟨(absurd hout ·), (absurd heq ·), (absurd hctx ·), (absurd hseed ·), (absurd hoperand ·)⟩
  · refine ⟨fun hne => ⟨i, hi, he.out_eq_or.resolve_left hne⟩, fun hne => ⟨i, hi, he.eq_eq_or.resolve_left hne⟩,
      fun hne => ⟨i, hi, he.ctx_eq_or.resolve_left hne⟩, fun hne => .inl ?_,
      fun hne => .inl ⟨i, hi, he.operand_eq_or.resolve_left hne⟩⟩
    obtain rfl := he.seed_eq_or.resolve_left hne
    exact hi
  · exact ⟨(absurd hout ·), (absurd heq ·), (absurd hctx ·), fun _ => .inr ⟨k, v, hk, hst, hseed⟩, (absurd hoperand ·)⟩
  · exact ⟨(absurd hout ·), (absurd heq ·), (absurd hctx ·), (absurd hseed ·), fun _ => .inr ⟨v, hst, hoperand⟩⟩

end Sys2Proof.Proofs
end

section
/-! ### The block's consistency -/

namespace Sys2Proof.Machine

/-! #### The words above N(ALGO) -/

theorem tailZero_of_none {s : State} (hA : s.algo = none) : tailZero s ↔ s.ctx = Quad.zero := by
  rw [tailZero, hA]

theorem tailZero_of_some {s : State} {A : Algo} (hA : s.algo = some A) : tailZero s ↔ TailZero A s.ctx := by
  rw [tailZero, hA, TailZero]

theorem TailZero.merge {A : Algo} {u : Quad} (h : TailZero A u) (w : Quad) : TailZero A (A.merge w u) := by
  rw [TailZero] at *
  rw [h]
  cases A <;> rfl

theorem tailZero_zero (A : Algo) : TailZero A Quad.zero := by
  cases A <;> rfl

/-! #### What keeps the invariant -/

variable {i : Instr} {a : HostAccess} {s t : State}

/-- Input taken off the agenda, accesses no longer held, the staged data and the answers are no concern of the invariant's. -/
theorem Inv.frame (hs : Inv s) (rest : List Input) (held : List HostAccess) (hh : ∀ b ∈ held, b ∈ s.held) (q : Quad)
    (v : Word) (rs : List (HostAccess × Response)) :
    Inv { s with agenda := rest, held := held, seed := q, operand := v, answers := rs } where
  tail := hs.tail
  built := hs.built
  fault := hs.fault
  idle := hs.idle
  wait := hs.wait
  reset := hs.reset
  quiet := fun h => ⟨(hs.quiet h).1, List.eq_nil_iff_forall_not_mem.mpr fun b hb => by
    simpa [(hs.quiet h).2] using hh b hb⟩
  held := fun b hb => hs.held b (hh b hb)

/-- With the command in execution complete, the engine's part of the invariant holds. -/
theorem inv_complete (ht : tailZero s) (hb : algoBuilt s) (hf : faultRecorded s) (hq : s.rstN = false → s.held = [])
    (hh : heldOnlyHoldable s) : Inv (complete s) where
  tail := ht
  built := hb
  fault := hf
  idle := fun _ => ⟨rfl, rfl, rfl, rfl⟩
  wait := nofun
  reset := nofun
  quiet := fun h => ⟨rfl, hq h⟩
  held := hh

theorem Inv.takeFault (hs : Inv s) {k : Cause} (hk : k ≠ .noFault) (e : List EntSample) :
    Inv (takeFault k { s with entropy := e }) :=
  inv_complete hs.tail hs.built ⟨nofun, fun _ => hk⟩ (fun h => (hs.quiet h).2) hs.held

/-- Both resets leave a consistent block: the values of 70 R291, at either level of `rst_n`. -/
theorem Inv.softReset (hs : Inv s) : Inv (softReset s) :=
  inv_complete (s := Machine.softReset s) rfl nofun ⟨fun _ => ⟨rfl, rfl⟩, nofun⟩
    (fun h => (hs.quiet h).2) hs.held

theorem inv_assertReset (s : State) : Inv (assertReset s) :=
  inv_complete (s := Machine.assertReset s) rfl nofun ⟨fun _ => ⟨rfl, rfl⟩, nofun⟩
    (fun _ => rfl) nofun

theorem Effect.inv (h : Effect i s t) (hs : Inv s) (hr : s.rstN = true) (hb : s.busy = true) (hd : decode s.pend = .ok i) :
    Inv t := by
  have hq : s.rstN = false → s.held = [] := fun h => (hs.quiet h).2
  cases h with
  | faulted k e hk => exact hs.takeFault hk e
  | drawn f A _ hA =>
    have ht := ((tailZero_of_some hA).mp hs.tail).advance
    exact inv_complete ((tailZero_of_some (s := drawTo f A s) hA).mpr ht) hs.built hs.fault hq hs.held
  | jumped A K _ hA _ =>
    have ht : TailZero A (jumpWith A K s.ctx) := ((tailZero_of_some hA).mp hs.tail).merge _
    exact inv_complete ((tailZero_of_some (s := { s with ctx := jumpWith A K s.ctx }) hA).mpr ht) hs.built hs.fault hq hs.held
  | seeded A w e _ _ hg _ =>
    exact inv_complete ((tailZero_of_some rfl).mpr ((tailZero_zero A).merge w)) (fun B h => by cases h; exact hg) hs.fault hq
      hs.held
  | nothing _ => exact inv_complete hs.tail hs.built hs.fault hq hs.held
  | compared q _ => exact inv_complete hs.tail hs.built hs.fault hq hs.held
  | rotated v _ => exact inv_complete hs.tail hs.built hs.fault hq hs.held
  | rotatedInPlace v _ => exact inv_complete hs.tail hs.built hs.fault hq hs.held
  | reset _ => exact hs.softReset
  | waits a A n b e hi hE hA hn =>
    exact {
      tail := hs.tail
      built := hs.built
      fault := hs.fault
      idle := fun h => by simp [hb] at h
      wait := fun _ => ⟨a, A, hi ▸ hd, hE, hA, hn⟩
      reset := hs.reset
      quiet := fun h => by simp [hr] at h
      held := hs.held }

theorem Arrival.inv (h : Arrival a s t) (hs : Inv s) (hr : s.rstN = true) : Inv t := by
  have frame := hs.frame s.agenda s.held (fun _ hb => hb)
  cases h with
  | outside _ => exact hs
  | refused off _ _ => exact frame s.seed s.operand _
  | read off r _ _ _ => exact frame s.seed s.operand _
  | seeded off k v _ _ _ => exact frame (s.seed.set k v) s.operand _
  | operand off v _ _ _ => exact frame s.seed v _
  | held off ho hb hq =>
    exact {
      tail := hs.tail
      built := hs.built
      fault := hs.fault
      idle := hs.idle
      wait := hs.wait
      reset := hs.reset
      quiet := fun h => by simp [hr] at h
      held := fun b hb => by
        obtain hb | rfl := List.mem_append.mp hb |>.imp_right List.mem_singleton.mp
        · exact hs.held b hb
        · exact ⟨off, ho, hq⟩ }
  | accepted off v ho hq hb hf =>
    obtain ⟨hw, -, -, -⟩ := hs.idle hb
    exact {
      tail := hs.tail
      built := hs.built
      fault := hs.fault
      idle := nofun
      wait := fun h => by simp [hw] at h
      reset := fun _ => hf
      quiet := fun h => by simp [hr] at h
      held := hs.held }

theorem StepEffect.inv (h : StepEffect s t) (hs : Inv s) : Inv t := by
  have idle (rest : List Input) : Inv { s with agenda := rest } :=
    hs.frame rest s.held (fun _ hb => hb) s.seed s.operand s.answers
  cases h with
  | illegal rest => exact (idle rest).takeFault (by decide) s.entropy
  | command i rest _ hi he =>
    obtain ⟨hr, hb, -, hd⟩ := hi
    exact he.inv (idle rest) hr hb hd
  | access a rest held _ hr hh ha => exact ha.inv (hs.frame rest held hh s.seed s.operand s.answers) hr
  | idle rest => exact idle rest
  | resetOn rest _ => exact inv_assertReset _
  | resetOff rest => exact { idle rest with quiet := nofun }

end Sys2Proof.Machine

namespace Sys2Proof.Proofs
open Sys2Proof.Machine

/-- Settles O58: a command, an access and an input with no access each keep the invariant. -/
theorem stepKeepsTheBlockConsistent : Obligations.StepKeepsTheBlockConsistent := by
  unfold Obligations.StepKeepsTheBlockConsistent
  intro s t hs h
  exact (step_effect h).inv hs

end Sys2Proof.Proofs
end

section
/-! ### Sixty-four words side by side

Whether a polynomial annihilates an update is a question about the 64 basis vectors of each live word. The update of all 64 is computed at once,
on the words put side by side in one number, so that the kernel evaluates one run of the polynomial for each live word. -/

namespace Sys2Proof.Machine

/-- Sixty-four words, word `j` at bit `64 * j`. -/
abbrev Lanes := BitVec (64 * 64)

/-- Word `j`. -/
def Lanes.lane (x : Lanes) (j : Nat) : Word := x.extractLsb' (64 * j) 64

/-- The low `n` bits of every word. -/
def lowBits (n : Nat) : Lanes := (BitVec.ofNat 64 (2 ^ n - 1)).replicate 64

/-- Every word shifted left. -/
def Lanes.shl (x : Lanes) (b : Nat) : Lanes := (x &&& lowBits (64 - b)) <<< b

/-- Every word rotated left. -/
def Lanes.rotl (x : Lanes) (a : Nat) : Lanes := x.shl a ||| (x >>> (64 - a) &&& lowBits a)

theorem getLsbD_lane (x : Lanes) (j i : Nat) : (x.lane j).getLsbD i = (decide (i < 64) && x.getLsbD (64 * j + i)) := by
  rw [Lanes.lane, BitVec.getLsbD_extractLsb']

theorem getLsbD_lowBits {n j i : Nat} (hj : j < 64) (hi : i < 64) :
    (lowBits n).getLsbD (64 * j + i) = decide (i < n) := by
  have hk : 64 * j + i < 64 * 64 := by omega
  rw [lowBits, BitVec.getLsbD_replicate, Nat.mul_add_mod, Nat.mod_eq_of_lt hi, BitVec.getLsbD_ofNat,
    Nat.testBit_two_pow_sub_one]
  simp [hk, hi]

theorem lane_xor (x y : Lanes) (j : Nat) : (x ^^^ y).lane j = x.lane j ^^^ y.lane j := by
  simp [Lanes.lane, BitVec.extractLsb'_xor]

theorem getLsbD_shl (x : Lanes) {b j i : Nat} (hb : b ≤ 64) (hj : j < 64) (hi : i < 64) :
    (x.shl b).getLsbD (64 * j + i) = (!decide (i < b) && x.getLsbD (64 * j + (i - b))) := by
  have hk : 64 * j + i < 64 * 64 := by omega
  rw [Lanes.shl, BitVec.getLsbD_shiftLeft, BitVec.getLsbD_and]
  by_cases hbi : i < b
  · by_cases hj0 : 64 * j + i < b
    · simp [hbi, hj0]
    · have hm := getLsbD_lowBits (n := 64 - b) (j := j - 1) (i := 64 + i - b) (by omega) (by omega)
      rw [show 64 * (j - 1) + (64 + i - b) = 64 * j + i - b by omega] at hm
      have hout : ¬64 + i - b < 64 - b := by omega
      simp [hm, hbi, hout]
  · rw [show 64 * j + i - b = 64 * j + (i - b) by omega, getLsbD_lowBits hj (by omega)]
    simp [hk, hbi, show i - b < 64 - b by omega, show ¬64 * j + i < b by omega]

theorem lane_shl (x : Lanes) {b j : Nat} (hb : b ≤ 64) (hj : j < 64) : (x.shl b).lane j = x.lane j <<< b := by
  apply BitVec.eq_of_getLsbD_eq
  intro i hi
  rw [getLsbD_lane, getLsbD_shl x hb hj hi, BitVec.getLsbD_shiftLeft, getLsbD_lane]
  simp [hi, show i - b < 64 by omega]

theorem lane_rotl (x : Lanes) {a j : Nat} (ha : a < 64) (hj : j < 64) :
    (x.rotl a).lane j = Machine.rotl 64 (x.lane j) a := by
  apply BitVec.eq_of_getLsbD_eq
  intro i hi
  rw [getLsbD_lane, Lanes.rotl, BitVec.getLsbD_or, getLsbD_shl x (by omega) hj hi, BitVec.getLsbD_and,
    BitVec.getLsbD_ushiftRight, getLsbD_lowBits hj hi, getLsbD_rotl _ ha, getLsbD_lane, getLsbD_lane,
    show 64 - a + (64 * j + i) = 64 * j + (64 - a + i) by omega]
  by_cases h : i < a
  · simp [hi, h, show 64 - a + i < 64 by omega]
  · simp [hi, h, show i - a < 64 by omega]

/-- Sixty-four tuples. -/
structure LaneQuad where
  w0 : Lanes
  w1 : Lanes
  w2 : Lanes
  w3 : Lanes
  deriving DecidableEq

/-- Tuple `j`. -/
def LaneQuad.lane (p : LaneQuad) (j : Nat) : Quad := ⟨p.w0.lane j, p.w1.lane j, p.w2.lane j, p.w3.lane j⟩

/-- All tuples zero. -/
def LaneQuad.zero : LaneQuad := ⟨0, 0, 0, 0⟩

/-- Wordwise exclusive OR. -/
def LaneQuad.xor (p q : LaneQuad) : LaneQuad := ⟨p.w0 ^^^ q.w0, p.w1 ^^^ q.w1, p.w2 ^^^ q.w2, p.w3 ^^^ q.w3⟩

/-- The shared core of the Xoroshiro128 family on every tuple. -/
def LaneQuad.xoroCore (a b c : Nat) (p : LaneQuad) : LaneQuad :=
  { p with
    w0 := p.w0.rotl a ^^^ (p.w0 ^^^ p.w1) ^^^ (p.w0 ^^^ p.w1).shl b
    w1 := (p.w0 ^^^ p.w1).rotl c }

/-- The update on every tuple; SplitMix64, which is not additive, is left out. -/
def LaneQuad.advance : Algo → LaneQuad → LaneQuad
  | .splitmix64, p => p
  | .xoroshiro128p, p => p.xoroCore 24 16 37
  | .xoroshiro128pp, p => p.xoroCore 49 21 28
  | .xoroshiro128pdrbg, p => p.xoroCore 55 14 36
  | .xoshiro256pp, p =>
    ⟨p.w0 ^^^ p.w3 ^^^ p.w1, p.w1 ^^^ p.w2 ^^^ p.w0, p.w2 ^^^ p.w0 ^^^ p.w1.shl 17, (p.w3 ^^^ p.w1).rotl 45⟩

/-- `evalPoly` on every tuple. -/
def LaneQuad.evalPoly (A : Algo) : Nat → Nat → LaneQuad → LaneQuad
  | 0, _, _ => .zero
  | n + 1, P, p => (if P.testBit 0 then p else .zero).xor (evalPoly A n (P / 2) (p.advance A))

theorem LaneQuad.lane_zero (j : Nat) : LaneQuad.zero.lane j = Quad.zero := by
  simp [LaneQuad.lane, LaneQuad.zero, Quad.zero, Lanes.lane]

theorem LaneQuad.lane_xor (p q : LaneQuad) (j : Nat) : (p.xor q).lane j = (p.lane j).xor (q.lane j) := by
  simp [LaneQuad.lane, LaneQuad.xor, Quad.xor, Machine.lane_xor]

theorem LaneQuad.lane_advance {A : Algo} (h : A.xorShift = true) (p : LaneQuad) {j : Nat} (hj : j < 64) :
    (p.advance A).lane j = Machine.advance A (p.lane j) := by
  cases A
  case splitmix64 => cases h
  case xoshiro256pp =>
    simp [advance_xoshiro256pp, LaneQuad.advance, LaneQuad.lane, Machine.lane_xor, lane_shl _ _ hj, lane_rotl _ _ hj]
  all_goals
    simp [Machine.advance, genStep, withPair, stepXoroshiro128P, stepXoroshiro128PP, stepXoroshiro128PDrbg,
      Machine.xoroCore, LaneQuad.advance, LaneQuad.xoroCore, LaneQuad.lane, Machine.lane_xor, lane_shl _ _ hj, lane_rotl _ _ hj]

theorem LaneQuad.lane_evalPoly {A : Algo} (h : A.xorShift = true) (n P : Nat) (p : LaneQuad) {j : Nat} (hj : j < 64) :
    (p.evalPoly A n P).lane j = Machine.evalPoly A n P (p.lane j) := by
  induction n generalizing P p with
  | zero => exact lane_zero j
  | succ n ih =>
    rw [evalPoly, lane_xor, ih, lane_advance h p hj, Machine.evalPoly]
    split
    · rfl
    · rw [lane_zero]

/-- Bit `j` of word `j`: the 64 basis vectors of a word. -/
def diagonal : Lanes := BitVec.ofNat _ ((List.range 64).foldr (fun j n => 2 ^ (65 * j) + n) 0)

/-- The 64 basis vectors of word `k` of a tuple. -/
def LaneQuad.units : Nat → LaneQuad
  | 0 => { LaneQuad.zero with w0 := diagonal }
  | 1 => { LaneQuad.zero with w1 := diagonal }
  | 2 => { LaneQuad.zero with w2 := diagonal }
  | 3 => { LaneQuad.zero with w3 := diagonal }
  | _ => .zero

theorem LaneQuad.lane_units : ∀ k < 4, ∀ j < 64, (units k).lane j = unitWord k (1#64 <<< j) := by
  decide +kernel

/-- The basis vectors of one word at a time. -/
theorem annihilatesBasis_of_lanes {A : Algo} (h : A.xorShift = true) {n P : Nat}
    (hP : ∀ k < A.width, (LaneQuad.units k).evalPoly A (n + 1) P = .zero) : annihilatesBasis A n P = true := by
  simp only [annihilatesBasis, List.all_eq_true, List.mem_range, beq_iff_eq]
  intro k hk j hj
  have hk4 := hk.trans_le A.width_le
  rw [← LaneQuad.lane_units k hk4 j hj, ← LaneQuad.lane_evalPoly h _ _ _ hj, hP k hk, LaneQuad.lane_zero]

theorem annihilates_charPoly {A : Algo} (h : A.xorShift = true) : Annihilates A (64 * A.width) (charPoly A) := by
  refine annihilates_of_basis h (annihilatesBasis_of_lanes h ?_)
  cases A
  case splitmix64 => cases h
  case xoroshiro128p => decide +kernel
  case xoroshiro128pp => decide +kernel
  case xoroshiro128pdrbg => decide +kernel
  case xoshiro256pp => decide +kernel

end Sys2Proof.Machine
end

section
/-! ### The live words and the zero-state invariant (10 R48, R49) -/

namespace Sys2Proof.Machine

/-- The live words of a tuple, with zeros above N(A). -/
def live (A : Algo) (q : Quad) : Quad := A.merge q Quad.zero

theorem tailZero_live (A : Algo) (q : Quad) : TailZero A (live A q) := (tailZero_zero A).merge q

theorem liveZero_iff_live (A : Algo) (q : Quad) : A.liveZero q = true ↔ live A q = Quad.zero := by
  rw [Algo.liveZero_iff]
  constructor
  · intro h
    refine Quad.ext_get fun k hk => ?_
    rw [live, Algo.merge_get A q Quad.zero k hk]
    split
    · rename_i hkA
      rw [h k hkA]
      interval_cases k <;> rfl
    · rfl
  · intro h k hk
    have hk4 := hk.trans_le A.width_le
    have := Algo.merge_get A q Quad.zero k hk4
    rw [if_pos hk] at this
    rw [← this, ← live, h]
    interval_cases k <;> rfl

theorem live_merge (A : Algo) (w u : Quad) : live A (A.merge w u) = live A w := by
  cases A <;> rfl

theorem live_advance (A : Algo) (q : Quad) : live A (advance A q) = advance A (live A q) := by
  cases A <;> rfl

theorem live_xor (A : Algo) (p q : Quad) : live A (p.xor q) = (live A p).xor (live A q) := by
  cases A <;> simp [live, Algo.merge, Algo.width, Quad.xor, Quad.zero]

theorem live_zero (A : Algo) : live A Quad.zero = Quad.zero := by
  cases A <;> rfl

theorem live_evalPoly (A : Algo) (n p : Nat) (q : Quad) : live A (evalPoly A n p q) = evalPoly A n p (live A q) := by
  induction n generalizing p q with
  | zero => exact live_zero A
  | succ n ih =>
    rw [evalPoly, evalPoly, live_xor, ih, live_advance]
    split
    · rfl
    · rw [live_zero]

/-! #### A step keeps the live words from being all zero -/

theorem rotl_eq_zero {x : Word} {n : Nat} (hn : n < 64) (h : rotl 64 x n = 0) : x = 0 := by
  apply BitVec.eq_of_getLsbD_eq
  intro j hj
  by_cases hw : j + n < 64
  · have hb := getLsbD_rotl x hn (j + n)
    rw [h] at hb
    simpa [hw] using hb.symm
  · have hb := getLsbD_rotl x hn (j + n - 64)
    rw [h] at hb
    simpa [show j + n - 64 < 64 by omega, show j + n - 64 < n by omega, show 64 - n + (j + n - 64) = j by omega] using hb.symm

theorem xoroCore_eq_zero {a b c : Nat} (ha : a < 64) (hc : c < 64) {s0 s1 : Word} (h : xoroCore a b c s0 s1 = (0, 0)) :
    s0 = 0 ∧ s1 = 0 := by
  obtain ⟨h0, h1⟩ := Prod.mk.inj h
  have hx := rotl_eq_zero hc h1
  rw [hx] at h0
  have hs := rotl_eq_zero ha (by simpa using h0)
  rw [hs] at hx
  exact ⟨hs, by simpa using hx⟩

/-- A word that is its own left shift is zero: four shifts by 17 move every bit out. -/
theorem eq_zero_of_eq_shiftLeft {x : Word} (h : x = x <<< 17) : x = 0 := by
  have h2 : x = x <<< 34 := by rw [show 34 = 17 + 17 by rfl, BitVec.shiftLeft_add, ← h, ← h]
  have h4 : x = x <<< 68 := by rw [show 68 = 34 + 34 by rfl, BitVec.shiftLeft_add, ← h2, ← h2]
  rw [h4]
  exact BitVec.shiftLeft_eq_zero (by omega)

theorem advance_xoshiro256pp_eq_zero {q : Quad} (h : advance .xoshiro256pp q = Quad.zero) : q = Quad.zero := by
  rw [advance_xoshiro256pp] at h
  injection h with h0 h1 h2 h3
  have h31 : q.w3 = q.w1 := BitVec.xor_eq_zero_iff.mp (rotl_eq_zero (by omega) h3)
  have hw0 : q.w0 = 0 := by simpa [h31, BitVec.xor_assoc] using h0
  have h12 : q.w1 = q.w2 := by simpa [hw0] using h1
  have hw2 : q.w2 = 0 := eq_zero_of_eq_shiftLeft (by simpa [hw0, h12] using h2)
  exact Quad.mk.injEq .. |>.mpr ⟨hw0, h12.trans hw2, hw2, h31.trans (h12.trans hw2)⟩

theorem eq_zero_of_xoroCore_eq_zero {a b c : Nat} (ha : a < 64) (hc : c < 64) {q : Quad} (ht : q = ⟨q.w0, q.w1, 0, 0⟩)
    (hq : (⟨(xoroCore a b c q.w0 q.w1).1, (xoroCore a b c q.w0 q.w1).2, q.w2, q.w3⟩ : Quad) = Quad.zero) :
    q = Quad.zero := by
  injection hq with h0 h1 _ _
  obtain ⟨h0, h1⟩ := xoroCore_eq_zero ha hc (Prod.ext h0 h1)
  rw [ht, h0, h1]
  rfl

theorem advance_eq_zero {A : Algo} (h : A.xorShift = true) {q : Quad} (ht : TailZero A q) (hq : advance A q = Quad.zero) :
    q = Quad.zero := by
  cases A
  case splitmix64 => cases h
  case xoroshiro128p => exact eq_zero_of_xoroCore_eq_zero (by decide) (by decide) ht hq
  case xoroshiro128pp => exact eq_zero_of_xoroCore_eq_zero (by decide) (by decide) ht hq
  case xoroshiro128pdrbg => exact eq_zero_of_xoroCore_eq_zero (by decide) (by decide) ht hq
  case xoshiro256pp => exact advance_xoshiro256pp_eq_zero hq

theorem iterate_advance_eq_zero {A : Algo} (h : A.xorShift = true) {q : Quad} (ht : TailZero A q) (m : Nat)
    (hq : (advance A)^[m] q = Quad.zero) : q = Quad.zero := by
  induction m with
  | zero => exact hq
  | succ m ih =>
    rw [Function.iterate_succ_apply'] at hq
    exact ih (advance_eq_zero h (ht.iterate m) hq)

/-! #### A jump is a number of steps on the live words (45 R222) -/

/-- A jump constant list as one number, bit `j` of which is `constBit K j`. -/
def constNat : List Word → Nat
  | [] => 0
  | k :: ks => 2 ^ 64 * constNat ks + k.toNat

theorem testBit_constNat (K : List Word) (j : Nat) : (constNat K).testBit j = constBit K j := by
  induction K generalizing j with
  | nil => simp [constNat, constBit]
  | cons k ks ih =>
    rw [constNat, Nat.testBit_two_pow_mul_add _ k.isLt, ih]
    split
    · rename_i hj
      simp [constBit, Nat.div_eq_of_lt hj, Nat.mod_eq_of_lt hj, BitVec.getLsbD]
    · rename_i hj
      obtain ⟨m, rfl⟩ : ∃ m, j = m + 64 := ⟨j - 64, by omega⟩
      simp [constBit]

/-- On the live words a jump is the polynomial of its constant list. -/
theorem live_jumpWith (A : Algo) (K : List Word) (q : Quad) :
    live A (jumpWith A K q) = evalPoly A (64 * K.length) (constNat K) (live A q) := by
  have hsum : (scanWords A K (Quad.zero, q)).1 = selectedSum A K q := scanWords_fst A K Quad.zero q
  rw [jumpWith, live_merge, hsum, selectedSum_eq_evalPoly A K (constNat K) q (fun j _ => testBit_constNat K j), live_evalPoly]

theorem jumpConst_length {A : Algo} {K : List Word} (hK : jumpConst A = some K) : K.length = A.width := by
  cases A <;> cases hK <;> rfl

theorem ljumpConst_length {A : Algo} {K : List Word} (hK : ljumpConst A = some K) : K.length = A.width := by
  cases A <;> cases hK <;> rfl

theorem xorShift_of_jumpConst {A : Algo} {K : List Word} (hK : jumpConst A = some K) : A.xorShift = true := by
  cases A with
  | splitmix64 => cases hK
  | _ => rfl

theorem jumpConst_of_ljumpConst {A : Algo} {L : List Word} (hL : ljumpConst A = some L) : ∃ K, jumpConst A = some K := by
  cases A with
  | splitmix64 => cases hL
  | _ => exact ⟨_, rfl⟩

theorem charPoly_top {A : Algo} (h : A.xorShift = true) : (charPoly A).testBit (64 * A.width) = true := by
  cases A with
  | splitmix64 => cases h
  | _ => decide +kernel

/-- x squared 64 or 128 times is the jump's polynomial. -/
theorem squared_eq_jumpConst {A : Algo} {K : List Word} (hK : jumpConst A = some K) :
    squared (64 * A.width) (charPoly A) (32 * A.width) 2 = constNat K := by
  cases A
  case splitmix64 => cases hK
  all_goals
    cases hK
    decide +kernel

/-- The jump's polynomial squared 32 or 64 times is the long jump's. -/
theorem squared_eq_ljumpConst {A : Algo} {K L : List Word} (hK : jumpConst A = some K) (hL : ljumpConst A = some L) :
    squared (64 * A.width) (charPoly A) (16 * A.width) (constNat K) = constNat L := by
  cases A
  case splitmix64 => cases hK
  case xoroshiro128pdrbg => cases hL
  all_goals
    cases hK
    cases hL
    decide +kernel


/-- JUMP is `2 ^ (32 * N)` steps on the live words: 2^64 for the Xoroshiro128 family, 2^128 for Xoshiro256++. -/
theorem evalPoly_jumpConst {A : Algo} {K : List Word} (hK : jumpConst A = some K) (q : Quad) (hq : TailZero A q) :
    evalPoly A (64 * A.width) (constNat K) q = (advance A)^[2 ^ (32 * A.width)] q := by
  have h := xorShift_of_jumpConst hK
  have hw := A.width_pos
  have hs := evalPoly_squared h (by omega) (annihilates_charPoly h) (charPoly_top h) (32 * A.width) 1 2
    (fun q _ => evalPoly_two A _ (by omega) q) q hq
  rwa [squared_eq_jumpConst hK, one_mul] at hs

/-- LJUMP is `2 ^ (48 * N)` steps on the live words: 2^96 for the Xoroshiro128 family, 2^192 for Xoshiro256++. -/
theorem evalPoly_ljumpConst {A : Algo} {L : List Word} (hL : ljumpConst A = some L) (q : Quad) (hq : TailZero A q) :
    evalPoly A (64 * A.width) (constNat L) q = (advance A)^[2 ^ (48 * A.width)] q := by
  obtain ⟨K, hK⟩ := jumpConst_of_ljumpConst hL
  have h := xorShift_of_jumpConst hK
  have hw := A.width_pos
  have hs := evalPoly_squared h (by omega) (annihilates_charPoly h) (charPoly_top h) (16 * A.width) (2 ^ (32 * A.width))
    (constNat K) (evalPoly_jumpConst hK) q hq
  rwa [squared_eq_ljumpConst hK hL, ← pow_add, ← add_mul] at hs

/-- A jump leaves some later tuple of the sequence in the live words. -/
theorem live_jumpWith_eq_iterate {A : Algo} {K : List Word} (hK : jumpConst A = some K ∨ ljumpConst A = some K) (q : Quad) :
    ∃ m, live A (jumpWith A K q) = (advance A)^[m] (live A q) := by
  rw [live_jumpWith]
  obtain hK | hK := hK
  · exact ⟨_, by rw [jumpConst_length hK, evalPoly_jumpConst hK _ (tailZero_live A q)]⟩
  · exact ⟨_, by rw [ljumpConst_length hK, evalPoly_ljumpConst hK _ (tailZero_live A q)]⟩

/-! #### Every step keeps the zero-state invariant -/

variable {i : Instr} {a : HostAccess} {s t : State}

/-- The invariant speaks of ALGO and S alone. -/
theorem NonzeroContext.congr (hs : NonzeroContext s) (ha : t.algo = s.algo) (hc : t.ctx = s.ctx) : NonzeroContext t := by
  intro A hA
  rw [hc]
  exact hs A (ha ▸ hA)

/-- Where the live words after a command come from steps, they are not all zero if they were not before. -/
theorem liveZero_of_iterate {A : Algo} (h : A.xorShift = true) {p q : Quad} {m : Nat}
    (hm : live A p = (advance A)^[m] (live A q)) (hq : A.liveZero q = false) : A.liveZero p = false := by
  rw [← Bool.not_eq_true, liveZero_iff_live] at *
  intro hp
  exact hq (iterate_advance_eq_zero h (tailZero_live A q) m (hm.symm.trans hp))

theorem Effect.nonzero (h : Effect i s t) (hs : NonzeroContext s) : NonzeroContext t := by
  cases h with
  | drawn f A _ hA =>
    intro B hB hx
    cases hA.symm.trans hB
    exact liveZero_of_iterate (m := 1) hx (live_advance A s.ctx) (hs A hA hx)
  | jumped A K _ hA hK =>
    intro B hB hx
    cases hA.symm.trans hB
    obtain ⟨m, hm⟩ := live_jumpWith_eq_iterate hK s.ctx
    exact liveZero_of_iterate hx hm (hs A hA hx)
  | seeded A w e _ _ _ hw =>
    intro B hB hx
    cases hB
    refine liveZero_of_iterate (m := 0) hx (live_merge A w Quad.zero) ?_
    simpa [zeroSeeded, hx] using hw
  | reset _ => exact nofun
  | _ => exact hs.congr rfl rfl

end Sys2Proof.Machine

namespace Sys2Proof.Proofs
open Sys2Proof.Machine

/-- Settles O59: the assertion of `rst_n` leaves no algorithm, accesses and idle steps leave ALGO and S alone, and a command is
`Effect.nonzero`. -/
theorem stepKeepsTheContextNonzero : Obligations.StepKeepsTheContextNonzero := by
  unfold Obligations.StepKeepsTheContextNonzero
  intro s t hs h
  obtain ⟨_, hn⟩ | hd | ⟨i, rest, _, he⟩ | ⟨k, v, _, _, hd⟩ | ⟨v, _, hd⟩ := (step_effect h).data
  · exact fun A hA => by simp [hn] at hA
  · exact hs.congr hd.1 hd.2.1
  · exact he.nonzero hs
  · exact hs.congr hd.1 hd.2.1
  · exact hs.congr hd.1 hd.2.1

end Sys2Proof.Proofs
end

section
/-! ### Register values by offset, and registers byte by byte (20 R72, R75, R76) -/

namespace Sys2Proof.Machine

theorem exists_regAt {off : Nat} (h : off < 0x70) (h8 : off % 8 = 0) : ∃ r, regAt off = some r := by
  refine Option.ne_none_iff_exists'.mp fun hn => ?_
  have := (regAt_none_iff off).mp hn
  omega

theorem regAt_bounds {off : Nat} {r : Reg} (h : regAt off = some r) : off < 0x70 ∧ off % 8 = 0 := by
  have hn : ¬(0x70 ≤ off ∨ off % 8 ≠ 0) := by simp [← regAt_none_iff, h]
  omega

theorem windowValue_offset (s : State) (r : Reg) : windowValue s r.offset = readReg s r := by
  cases r with
  | seed k =>
    have hk : 0x20 + 8 * k.val < 0x40 := by omega
    have h8 : ¬(0x20 + 8 * k.val = 0x08 ∨ 0x20 + 8 * k.val = 0x10 ∨ 0x20 + 8 * k.val = 0x18) := by omega
    simp_all [windowValue, Reg.offset, readReg]
  | state k =>
    have hk : ¬0x40 + 8 * k.val < 0x40 ∧ 0x40 + 8 * k.val < 0x60 := by omega
    have h8 : ¬(0x40 + 8 * k.val = 0x08 ∨ 0x40 + 8 * k.val = 0x10 ∨ 0x40 + 8 * k.val = 0x18) := by omega
    simp_all [windowValue, Reg.offset, readReg]
  | _ => rfl

/-- A read by the model's registers is a read by the table of offsets. -/
theorem readReg_eq_windowValue {off : Nat} {r : Reg} (h : regAt off = some r) (s : State) :
    readReg s r = windowValue s off := by
  rw [regAt_some h, windowValue_offset]

theorem writable_iff_offset (r : Reg) : writable r = true ↔ r.offset ∉ readOnlyOffsets := by
  cases r with
  | seed k => revert k; decide
  | state k => revert k; decide
  | _ => decide

theorem writable_iff {off : Nat} {r : Reg} (h : regAt off = some r) : writable r = true ↔ off ∉ readOnlyOffsets := by
  rw [regAt_some h, writable_iff_offset]

theorem getLsbD_byteLane (v : Word) (j : Nat) {i : Nat} (hi : i < 8) :
    (byteLane v j).getLsbD i = v.getLsbD (8 * j + i) := by
  simp [byteLane, hi]

theorem toNat_byteLane (v : Word) (j : Nat) : (byteLane v j).toNat = v.toNat / 2 ^ (8 * j) % 2 ^ 8 :=
  toNat_extractLsb'_div v (8 * j) 8

/-- A word is the little-endian sum of its byte lanes. -/
theorem toNat_eq_sum_byteLane (v : Word) : v.toNat = ∑ j ∈ Finset.range 8, (byteLane v j).toNat * 2 ^ (8 * j) := by
  have hv := v.isLt
  simp only [toNat_byteLane, Finset.sum_range_succ, Finset.sum_range_zero]
  omega

end Sys2Proof.Machine

namespace Sys2Proof.Proofs
open Sys2Proof.Machine

/-- Settles O45: the window shows the byte lanes of the register at the offset, and a word is the sum of its byte lanes. -/
theorem registerBytesAreLittleEndian : Obligations.RegisterBytesAreLittleEndian := by
  unfold Obligations.RegisterBytesAreLittleEndian
  intro s off j hoff h8 hj
  refine ⟨?_, fun i hi => getLsbD_byteLane _ j hi, toNat_eq_sum_byteLane _⟩
  obtain ⟨r, hr⟩ := exists_regAt hoff h8
  have hbase : (off + j) / 8 * 8 = off := by omega
  have hlane : (off + j) % 8 = j := by omega
  rw [windowByte, hbase, hlane, hr, ← readReg_eq_windowValue hr]

end Sys2Proof.Proofs
end

section
/-! ### One host access (20 R73 to R83) -/

namespace Sys2Proof.Machine

variable {a : HostAccess} {off : Nat} {s t : State} {rest : List Input}

/-! #### What an access asks for -/

/-- An access that is a bus error whatever the state. -/
theorem requestAt_eq_bad
    (h : a.size ≠ 8 ∨ off % 8 ≠ 0 ∨ 0x70 ≤ off ∨
      ∃ strobes v, a.op = .write strobes v ∧ (strobes ≠ 0xFF ∨ off ∈ readOnlyOffsets)) :
    requestAt off a = .bad := by
  cases hq : requestAt off a with
  | bad => rfl
  | read r =>
    obtain ⟨hr, hsize, hop⟩ := requestAt_read hq
    obtain ⟨hoff, h8⟩ := regAt_bounds hr
    obtain h | h | h | ⟨strobes, v, hw, _⟩ := h
    · exact absurd hsize h
    · exact absurd h8 h
    · exact absurd hoff h.not_gt
    · cases hop.symm.trans hw
  | write r w =>
    obtain ⟨hr, hsize, hop, hwr⟩ := requestAt_write hq
    obtain ⟨hoff, h8⟩ := regAt_bounds hr
    obtain h | h | h | ⟨strobes, v, hw, h⟩ := h
    · exact absurd hsize h
    · exact absurd h8 h
    · exact absurd hoff h.not_gt
    · cases hop.symm.trans hw
      obtain h | h := h
      · exact absurd rfl h
      · exact absurd h ((writable_iff hr).mp hwr)

theorem requestAt_of_read {r : Reg} (hr : regAt off = some r) (hsize : a.size = 8)
    (hop : a.op = .read) : requestAt off a = .read r := by
  simp [requestAt, hr, (regAt_bounds hr).2, hsize, hop]

theorem requestAt_of_write {r : Reg} {v : Word} (hr : regAt off = some r) (hsize : a.size = 8)
    (hop : a.op = .write 0xFF v) (hw : off ∉ readOnlyOffsets) : requestAt off a = .write r v := by
  simp [requestAt, hr, (regAt_bounds hr).2, hsize, hop, (writable_iff hr).mpr hw]

/-- The accesses held while BUSY are the admitted ones other than reads of ID and STATUS (20 R82). -/
theorem neverHeld_of_holdable (hsize : a.size = 8) (h : holdable off a.op) : neverHeld (requestAt off a) = false := by
  obtain ⟨hoff, h8, hop⟩ := h
  obtain ⟨r, hr⟩ := exists_regAt hoff h8
  obtain ⟨hop, h0, h10⟩ | ⟨v, hop, hw⟩ := hop
  · rw [requestAt_of_read hr hsize hop]
    rw [regAt_some hr] at h0 h10
    cases r with
    | id => exact absurd rfl h0
    | status => exact absurd rfl h10
    | _ => rfl
  · rw [requestAt_of_write hr hsize hop hw]
    rfl

/-! #### What performing it does -/

theorem refuses_iff (s : State) (v : Word) : refuses s v = true ↔ s.fault = true ∧ v ≠ 0x00000000000000FF#64 := by
  simp [refuses, sresetWord]

theorem perform_read {r : Reg} (hr : regAt off = some r) (hsize : a.size = 8) (hop : a.op = .read) :
    perform a (requestAt off a) s = answer a (.data (windowValue s off)) s := by
  rw [requestAt_of_read hr hsize hop, perform, readReg_eq_windowValue hr]

/-- An admitted write is performed as the tables by offset say. -/
theorem performWrite_eq_afterAccess {r : Reg} {v : Word} (hr : regAt off = some r) (hop : a.op = .write 0xFF v)
    (hw : off ∉ readOnlyOffsets) : performWrite a r v s = afterAccess a off s.held s.agenda s := by
  have hwr := (writable_iff hr).mpr hw
  obtain rfl := regAt_some hr
  cases r with
  | cmd =>
    simp only [performWrite, refuses_iff, afterAccess, accessEffect, accessResponse, hop, Reg.offset, true_and, if_true]
    split <;> rfl
  | seed k =>
    have hk : 0x20 + 8 * k.val ≠ 0x08 ∧ 0x20 + 8 * k.val ≠ 0x68 ∧ (0x20 + 8 * k.val - 0x20) / 8 = k := by omega
    simp [performWrite, writeReg, answer, afterAccess, accessEffect, accessResponse, hop, Reg.offset, hk]
  | operand => simp [performWrite, writeReg, answer, afterAccess, accessEffect, accessResponse, hop, Reg.offset]
  | _ => cases hwr

theorem perform_of_holdable (hsize : a.size = 8) (h : holdable off a.op) :
    perform a (requestAt off a) s = afterAccess a off s.held s.agenda s := by
  obtain ⟨hoff, h8, hop⟩ := h
  obtain ⟨r, hr⟩ := exists_regAt hoff h8
  obtain ⟨hop, -, -⟩ | ⟨v, hop, hw⟩ := hop
  · rw [perform_read hr hsize hop]
    simp [answer, afterAccess, accessEffect, accessResponse, hop]
  · rw [requestAt_of_write hr hsize hop hw, perform, performWrite_eq_afterAccess hr hop hw]

/-- What the access does depends neither on what is held nor on the agenda. -/
theorem afterAccess_frame (held held' : List HostAccess) (agenda agenda' : List Input) :
    afterAccess a off held agenda { s with held := held', agenda := agenda' } = afterAccess a off held agenda s := by
  unfold afterAccess accessEffect
  cases a.op with
  | read => rfl
  | write strobes v =>
    dsimp only
    split_ifs <;> rfl

/-! #### Its arrival -/

theorem arrive_of_offset (haddr : a.addr = s.build.baseAddr + off) (hoff : off < 256) :
    arrive a s = if s.busy && !neverHeld (requestAt off a) then hold a s else perform a (requestAt off a) s := by
  rw [arrive, haddr, windowOffset_base _ _ hoff]

theorem arrive_of_bad (haddr : a.addr = s.build.baseAddr + off) (hoff : off < 256) (hq : requestAt off a = .bad) :
    arrive a s = answer a .error s := by
  simp [arrive_of_offset haddr hoff, hq, neverHeld, perform]

theorem arrive_of_busy (haddr : a.addr = s.build.baseAddr + off) (hsize : a.size = 8) (h : holdable off a.op)
    (hb : s.busy = true) : arrive a s = hold a s := by
  have hoff : off < 256 := h.1.trans (by omega)
  simp [arrive_of_offset haddr hoff, hb, neverHeld_of_holdable hsize h]

theorem arrive_of_idle (haddr : a.addr = s.build.baseAddr + off) (hsize : a.size = 8) (h : holdable off a.op)
    (hb : s.busy = false) : arrive a s = afterAccess a off s.held s.agenda s := by
  have hoff : off < 256 := h.1.trans (by omega)
  simp [arrive_of_offset haddr hoff, hb, perform_of_holdable hsize h]

/-! #### The steps that host accesses and turns take -/

theorem step_of_accessIsNext (h : accessIsNext s a rest) : step s = .next (arrive a { s with agenda := rest }) := by
  obtain ⟨hr, hb, ha⟩ := h
  have hgo : (s.busy || s.held.isEmpty) = true := by simpa using hb
  rw [step, schedule, ha]
  simp only [hostTurn, hr, hgo, if_true]

theorem step_of_bad (hn : accessIsNext s a rest) (haddr : a.addr = s.build.baseAddr + off) (hoff : off < 256)
    (hq : requestAt off a = .bad) : step s = .next (answeredWith .error a rest s) := by
  rw [step_of_accessIsNext hn, arrive_of_bad (s := { s with agenda := rest }) haddr hoff hq]
  rfl

theorem step_of_holdable_busy (hn : accessIsNext s a rest) (haddr : a.addr = s.build.baseAddr + off) (hsize : a.size = 8)
    (h : holdable off a.op) (hb : s.busy = true) : step s = .next (heldBack a rest s) := by
  rw [step_of_accessIsNext hn, arrive_of_busy (s := { s with agenda := rest }) haddr hsize h hb]
  rfl

theorem step_of_holdable_idle (hn : accessIsNext s a rest) (haddr : a.addr = s.build.baseAddr + off) (hsize : a.size = 8)
    (h : holdable off a.op) (hb : s.busy = false) : step s = .next (afterAccess a off s.held rest s) := by
  rw [step_of_accessIsNext hn, arrive_of_idle (s := { s with agenda := rest }) haddr hsize h hb]
  exact congrArg _ (afterAccess_frame s.held s.held rest rest)

theorem step_of_read {r : Reg} (hn : accessIsNext s a rest) (haddr : a.addr = s.build.baseAddr + off)
    (hr : regAt off = some r) (hsize : a.size = 8) (hop : a.op = .read)
    (hnow : s.busy = false ∨ neverHeld (.read r) = true) :
    step s = .next (answeredWith (.data (windowValue s off)) a rest s) := by
  have hoff : off < 256 := (regAt_bounds hr).1.trans (by omega)
  have hgo : ¬(s.busy && !neverHeld (.read r)) = true := by
    obtain h | h := hnow <;> simp [h]
  rw [step_of_accessIsNext hn, arrive_of_offset (s := { s with agenda := rest }) haddr hoff, perform_read hr hsize hop,
    requestAt_of_read hr hsize hop, if_neg hgo]
  rfl

theorem step_of_turnIsNext (h : turnIsNext s rest) : step s = blockTurn { s with agenda := rest } := by
  rw [step, schedule]
  obtain ha | ⟨ha, rfl⟩ := h
  · rw [ha]
  · rw [ha, show { s with agenda := [] } = s by rw [← ha]]

theorem step_of_engineTurn (h : turnIsNext s rest) (hr : s.rstN = true) (hb : s.busy = true) :
    step s = runCommand { s with agenda := rest } := by
  rw [step_of_turnIsNext h, blockTurn]
  simp only [hr, hb, if_true]

/-- The oldest held access is performed on the idle block, and the others stay held. -/
theorem releaseHeld_of_holdable {others : List HostAccess} (hh : s.held = a :: others) (hb : s.busy = false)
    (haddr : a.addr = s.build.baseAddr + off) (hsize : a.size = 8) (h : holdable off a.op) :
    releaseHeld s = afterAccess a off others s.agenda s := by
  rw [releaseHeld, hh]
  exact (arrive_of_idle (s := { s with held := others }) haddr hsize h hb).trans
    (afterAccess_frame others others s.agenda s.agenda)

end Sys2Proof.Machine

namespace Sys2Proof.Proofs
open Sys2Proof.Machine

/-- Settles O43: such an access asks for `bad`, which is answered at once. -/
theorem busErrorsChangeNothing : Obligations.BusErrorsChangeNothing := by
  unfold Obligations.BusErrorsChangeNothing
  intro s a rest off hn haddr hoff h
  exact step_of_bad hn haddr hoff (requestAt_eq_bad h)

/-- Settles O41, by the three things an aligned read can be: a bus error, held, or performed. -/
theorem hostReadsReturnTheRegister : Obligations.HostReadsReturnTheRegister := by
  unfold Obligations.HostReadsReturnTheRegister
  intro s a rest off hn haddr hoff h8 hsize hop
  refine ⟨fun hres => step_of_bad hn haddr hoff (requestAt_eq_bad (.inr (.inr (.inl hres)))),
    fun hreg hb h0 h10 => step_of_holdable_busy hn haddr hsize ⟨hreg, h8, .inl ⟨hop, h0, h10⟩⟩ hb, fun hreg hb => ?_⟩
  obtain ⟨r, hr⟩ := exists_regAt hreg h8
  refine step_of_read hn haddr hr hsize hop (hb.imp_right fun h => ?_)
  obtain rfl | rfl := h <;> cases hr <;> rfl

/-- Settles O42, by the three things an aligned write can be: a bus error, held, or performed by the table of its offset. -/
theorem hostWritesStoreOrIssue : Obligations.HostWritesStoreOrIssue := by
  unfold Obligations.HostWritesStoreOrIssue
  intro s a rest off v hn haddr hoff h8 hsize hop
  have hadm (h : off < 0x70) (hw : off ∉ readOnlyOffsets) : holdable off a.op := ⟨h, h8, .inr ⟨v, hop, hw⟩⟩
  refine ⟨fun h => step_of_bad hn haddr hoff
      (requestAt_eq_bad (.inr (.inr (h.imp_right fun hw => ⟨0xFF, v, hop, .inr hw⟩)))),
    fun hreg hw hb => step_of_holdable_busy hn haddr hsize (hadm hreg hw) hb,
    fun hb => ⟨fun k hk hk20 => ?_, fun h68 => ?_, fun h08 hf hv => ?_, fun h08 hv => ?_⟩⟩
  · have hw : off ∉ readOnlyOffsets := by
      subst hk20
      interval_cases k <;> decide
    have hword : off ≠ 0x08 ∧ off ≠ 0x68 ∧ (off - 0x20) / 8 = k := by omega
    rw [step_of_holdable_idle hn haddr hsize (hadm (by omega) hw) hb]
    simp [afterAccess, accessEffect, accessResponse, answeredWith, hop, hword]
  · subst h68
    rw [step_of_holdable_idle hn haddr hsize (hadm (by decide) (by decide)) hb]
    simp [afterAccess, accessEffect, accessResponse, answeredWith, hop]
  · subst h08
    rw [step_of_holdable_idle hn haddr hsize (hadm (by decide) (by decide)) hb]
    simp [afterAccess, accessEffect, accessResponse, answeredWith, hop, hf, hv]
  · subst h08
    have hok : ¬(s.fault = true ∧ v ≠ 0x00000000000000FF#64) := by
      obtain hf | rfl := hv <;> simp [*]
    rw [step_of_holdable_idle hn haddr hsize (hadm (by decide) (by decide)) hb]
    simp only [afterAccess, accessEffect, accessResponse, answeredWith, hop, true_and, hok, if_true, if_false]

end Sys2Proof.Proofs
end

section
/-! ### The engine's steps, and the accesses held behind a command (20 R82 to R84) -/

namespace Sys2Proof.Machine

variable {a : HostAccess} {off : Nat} {i : Instr} {s t : State} {rest : List Input}

theorem step_of_decoded (h : turnIsNext s rest) (hr : s.rstN = true) (hb : s.busy = true)
    (hd : decode s.pend = .ok i) : step s = exec i { s with agenda := rest } := by
  rw [step_of_engineTurn h hr hb, runCommand, hd]

/-- A turn of an idle block performs the oldest held access and keeps the others. -/
theorem step_release_of_turnIsNext {others : List HostAccess} (h : turnIsNext s rest) (hr : s.rstN = true)
    (hb : s.busy = false) (hh : s.held = a :: others) (haddr : a.addr = s.build.baseAddr + off) (hsize : a.size = 8)
    (hadm : holdable off a.op) : step s = .next (afterAccess a off others rest s) := by
  have hrel := releaseHeld_of_holdable (s := { s with agenda := rest }) hh hb haddr hsize hadm
  rw [step_of_turnIsNext h, blockTurn, if_pos hr, if_neg (by simp [hb]), hrel]
  exact congrArg _ (afterAccess_frame others s.held rest rest)

/-- A later access waits on the agenda until the oldest held one is performed. -/
theorem step_release_of_host {b : HostAccess} {others : List HostAccess} (h : s.agenda = .host b :: rest)
    (hr : s.rstN = true) (hb : s.busy = false) (hh : s.held = a :: others) (haddr : a.addr = s.build.baseAddr + off)
    (hsize : a.size = 8) (hadm : holdable off a.op) : step s = .next (afterAccess a off others s.agenda s) := by
  have hwait : (s.busy || s.held.isEmpty) = false := by simp [hb, hh]
  rw [step, schedule, h]
  simp only [hostTurn, hr, hwait, if_true, Bool.false_eq_true, if_false]
  rw [releaseHeld_of_holdable hh hb haddr hsize hadm, h]

theorem runCommand_sameOutside (h : runCommand s = .next t) : SameOutside s t := by
  obtain ⟨-, hc⟩ | ⟨i, u, -, hc, he, -⟩ := runCommand_cases s
  · cases hc.symm.trans h
    exact ⟨rfl, rfl, rfl, rfl, rfl⟩
  · cases hc.symm.trans h
    exact (exec_effect he).sameOutside

theorem coreRun_succ {M : Host.Core} {u v : M.State} (k : Nat) (h : M.step u = .next v) : M.run (k + 1) u = M.run k v := by
  rw [Host.Core.run, h]

theorem run_succ (k : Nat) (h : step s = .next t) : core.run (k + 1) s = core.run k t :=
  coreRun_succ (M := core) k h

end Sys2Proof.Machine

namespace Sys2Proof.Proofs
open Sys2Proof.Machine

/-- Settles O48: the engine's turn decodes PEND and executes the command. -/
theorem stepRunsTheDecodedCommand : Obligations.StepRunsTheDecodedCommand := by
  unfold Obligations.StepRunsTheDecodedCommand
  intro s i rest hr hb hd
  refine ⟨fun ha => step_of_decoded (.inl ha) hr hb hd, fun ha => ?_⟩
  rw [step_of_decoded (.inr ⟨ha, rfl⟩) hr hb hd, ← ha]

/-- Settles O60: the idle block releases the oldest held access, and no command touches what is held or the answers. -/
theorem heldAccessesArePerformedInOrder : Obligations.HeldAccessesArePerformedInOrder := by
  unfold Obligations.HeldAccessesArePerformedInOrder
  refine ⟨fun s a off others hr hb hh haddr hsize hadm =>
    ⟨fun rest h => step_release_of_turnIsNext h hr hb hh haddr hsize hadm,
      fun b rest h => step_release_of_host h hr hb hh haddr hsize hadm⟩, fun s t rest hr hb h hs => ?_⟩
  rw [step_of_engineTurn h hr hb] at hs
  obtain ⟨-, -, hheld, -, hanswers⟩ := runCommand_sameOutside hs
  exact ⟨hheld, hanswers⟩

/-- Settles O44, step by step: the access is held, the command runs as if nothing were held (`exec_held`), and the access is
performed on what it left. -/
theorem readBehindACommandSeesItsResult : Obligations.ReadBehindACommandSeesItsResult := by
  unfold Obligations.ReadBehindACommandSeesItsResult
  intro s t i a off more hr hb hh hd haddr hsize hadm ha hexec htb
  obtain ⟨hbuild, hrst, -, hagenda, -⟩ := (exec_effect hexec).sameOutside
  let s₁ : State := { s with agenda := .clock :: .clock :: more, held := [a] }
  have hs₁ : step s = .next s₁ := by
    rw [step_of_holdable_busy ⟨hr, .inl hb, ha⟩ haddr hsize hadm hb, heldBack, hh]
    rfl
  have hs₂ : step s₁ = .next { t with held := [a] } := by
    rw [step_of_decoded (s := s₁) (.inl rfl) hr hb hd]
    exact (exec_held i { s with agenda := .clock :: more } [a]).trans (by rw [hexec, withHeld])
  have hs₃ : step { t with held := [a] } = .next (afterAccess a off [] more t) := by
    have hrel := step_release_of_turnIsNext (s := { t with held := [a] }) (.inl hagenda) (hrst.trans hr) htb rfl
      (by rw [haddr, hbuild]) hsize hadm
    exact hrel.trans (congrArg _ (afterAccess_frame [] [a] more t.agenda))
  exact ⟨(run_succ 1 hs₁).trans (run_succ 0 hs₂), (run_succ 2 hs₁).trans ((run_succ 1 hs₂).trans (run_succ 0 hs₃))⟩

end Sys2Proof.Proofs
end

section
/-! ### The bytes of the entropy port in their places (20 R91, R92) -/

namespace Sys2Proof.Machine

theorem byteLane_or (x y : Word) (j : Nat) : byteLane (x ||| y) j = byteLane x j ||| byteLane y j :=
  BitVec.extractLsb'_or

theorem byteLane_laneWord (b : Byte) {j l : Nat} (hj : j < 8) (hl : l < 8) :
    byteLane (laneWord b l) j = if j = l then b else 0 := by
  apply BitVec.eq_of_getLsbD_eq
  intro i hi
  rw [getLsbD_byteLane _ _ hi, laneWord, BitVec.getLsbD_shiftLeft, BitVec.getLsbD_setWidth]
  obtain h | rfl | h := Nat.lt_trichotomy j l
  · have hout : 8 * j + i < 8 * l := by omega
    simp [hout, h.ne]
  · have hin : 8 * j + i < 64 ∧ i < 64 := by omega
    simp only [hin, Nat.add_sub_cancel_left]
    simp
  · have hout : b.getLsbD (8 * j + i - 8 * l) = false := BitVec.getLsbD_of_ge _ _ (by omega)
    simp [hout, h.ne']

/-- Byte number `cnt` of the buffer is byte lane `cnt % 8` of word `cnt / 8`. -/
theorem byteLane_putByte (buf : Quad) {cnt k j : Nat} (b : Byte) (hc : cnt < 32) (hk : k < 4) (hj : j < 8) :
    byteLane ((putByte buf cnt b).get k) j = byteLane (buf.get k) j ||| if 8 * k + j = cnt then b else 0 := by
  rw [get_putByte buf cnt k b hc hk]
  by_cases hw : k = cnt / 8
  · rw [if_pos hw, byteLane_or, byteLane_laneWord b hj (by omega)]
    simp only [show j = cnt % 8 ↔ 8 * k + j = cnt by omega]
  · rw [if_neg hw, if_neg (by omega)]
    exact BitVec.or_zero.symm

/-- Bytes put from number `cnt` on are ORed into their lanes. -/
theorem byteLane_putBytes (buf : Quad) (cnt : Nat) (bytes : List Byte) {k j : Nat} (h : cnt + bytes.length ≤ 32)
    (hk : k < 4) (hj : j < 8) :
    byteLane ((putBytes buf cnt bytes).get k) j =
      byteLane (buf.get k) j ||| if cnt ≤ 8 * k + j then bytes.getD (8 * k + j - cnt) 0 else 0 := by
  induction bytes generalizing buf cnt with
  | nil => simp [putBytes]
  | cons b bs ih =>
    rw [List.length_cons] at h
    rw [putBytes, ih _ _ (by omega), byteLane_putByte buf b (by omega) hk hj, BitVec.or_assoc]
    congr 1
    obtain hlt | heq | hgt := Nat.lt_trichotomy (8 * k + j) cnt
    · simp [hlt.ne, show ¬cnt + 1 ≤ 8 * k + j by omega, show ¬cnt ≤ 8 * k + j by omega]
    · simp [heq]
    · have hsub : 8 * k + j - cnt = 8 * k + j - (cnt + 1) + 1 := by omega
      rw [if_neg hgt.ne', if_pos (show cnt + 1 ≤ 8 * k + j from hgt), if_pos hgt.le, hsub, List.getD_cons_succ]
      exact BitVec.zero_or

/-- Word `k` of the bytes put in an empty buffer is their little-endian word. -/
theorem toNat_get_putBytes (bytes : List Byte) {k : Nat} (h : bytes.length ≤ 32) (hk : k < 4) :
    ((putBytes Quad.zero 0 bytes).get k).toNat = littleEndianWord bytes k := by
  have hzero : Quad.zero.get k = 0 := by interval_cases k <;> rfl
  rw [toNat_eq_sum_byteLane]
  refine Finset.sum_congr rfl fun j hj => ?_
  have hlane := byteLane_putBytes Quad.zero 0 bytes (by omega) hk (Finset.mem_range.mp hj)
  rw [hlane, hzero, if_pos (Nat.zero_le _), Nat.sub_zero]
  simp [byteLane]

end Sys2Proof.Machine
end

section
/-! ### SEEDENT from what the entropy port shows (20 R91 to R93; 41 R155) -/

namespace Sys2Proof.Machine

variable {A : Algo} {s : State} {need cnt : Nat} {buf : Quad} {bytes : List Byte} {e : EntSample} {rest l : List EntSample}

/-! #### The handshake -/

theorem gather_full (h : need ≤ cnt) : gather need l cnt buf = .full buf l := by
  cases l <;> rw [gather, if_pos h]

theorem gather_fail (h : cnt + bytes.length < need) (he : e.fail = true) :
    gather need (byteEdges bytes ++ e :: rest) cnt buf = .failed rest := by
  rw [gather_byteEdges _ _ _ _ _ h.le, gather, if_neg (by omega), if_pos he]

theorem gather_silent_edge (h : cnt + bytes.length < need) (he : e.silent) :
    gather need (byteEdges bytes ++ e :: rest) cnt buf = .waiting (cnt + bytes.length) (putBytes buf cnt bytes) rest := by
  obtain ⟨hack, hfail⟩ := he
  rw [gather_byteEdges _ _ _ _ _ h.le, gather, if_neg (by omega), if_neg (by simp [hfail]), if_neg (by simp [hack])]

/-! #### The command -/

/-- The bytes received when SEEDENT goes on: none at the start of the wait (41 R155). -/
def waitCount (s : State) : Nat := if s.waitEnt then s.ecnt else 0

/-- The entropy words assembled when SEEDENT goes on: none at the start of the wait (41 R155). -/
def waitBuffer (s : State) : Quad := if s.waitEnt then s.ebuf else Quad.zero

theorem exec_seedent (hE : s.build.hasEntropy = true) (hA : algoUsable s.build A.code) :
    exec (.seedent A.code) s =
      seedFromEntropy A { s with waitEnt := true, ecnt := waitCount s, ebuf := waitBuffer s } := by
  change execSeedent A.code s = _
  rw [execSeedent, if_pos hE, target_code hA, beginWait_eq]
  rfl

/-- The end of SEEDENT that the handshake leads to. -/
def seedentEnd (A : Algo) (s : State) : Gathered → Outcome
  | .full buf rest => commit A buf { s with entropy := rest }
  | .failed rest => .next (takeFault .entropyFail { s with entropy := rest })
  | .waiting cnt buf rest => .next { s with waitEnt := true, ecnt := cnt, ebuf := buf, entropy := rest }

theorem commit_hidden (w : Quad) (b : Bool) (n : Nat) (q : Quad) :
    commit A w { s with waitEnt := b, ecnt := n, ebuf := q } = commit A w s := by
  unfold commit
  split <;> rfl

/-- SEEDENT is decided by the handshake on what it has received and what the port shows. -/
theorem exec_seedent_eq_seedentEnd (hE : s.build.hasEntropy = true) (hA : algoUsable s.build A.code) :
    exec (.seedent A.code) s = seedentEnd A s (gather (8 * A.width) s.entropy (waitCount s) (waitBuffer s)) := by
  rw [exec_seedent hE hA, seedFromEntropy]
  cases gather (8 * A.width) s.entropy (waitCount s) (waitBuffer s) with
  | full buf rest => exact commit_hidden (s := { s with entropy := rest }) buf true _ _
  | failed rest => rfl
  | waiting cnt buf rest => rfl

/-- The end keeps nothing of what the command had received and of what the port showed before. -/
theorem seedentEnd_frame (g : Gathered) (b : Bool) (n : Nat) (q : Quad) :
    seedentEnd A { s with waitEnt := b, ecnt := n, ebuf := q, entropy := l } g = seedentEnd A s g := by
  cases g with
  | full buf rest => exact commit_hidden (s := { s with entropy := rest }) buf b n q
  | failed rest => rfl
  | waiting cnt buf rest => rfl

/-! #### The commit, by the words it is given -/

theorem seedRejected_congr {w w' : Nat → Word} (h : ∀ k, k < A.width → w k = w' k) :
    SeedRejected A w ↔ SeedRejected A w' := by
  unfold SeedRejected
  refine and_congr_right fun _ => forall₂_congr fun k hk => ?_
  rw [h k hk]

theorem not_seedRejected_of_accepted {w : Nat → Word} (h : SeedAccepted A w) : ¬SeedRejected A w := by
  rintro ⟨hA, hw⟩
  obtain h | ⟨k, hk, hne⟩ := h
  · exact hA h
  · exact hne (hw k hk)

theorem committed_merge (A : Algo) {buf : Quad} {w : Nat → Word} (h : ∀ k, k < A.width → buf.get k = w k) :
    Committed A w (A.merge buf Quad.zero) := by
  intro k hk
  rw [Algo.merge_get A buf Quad.zero k hk]
  split
  · exact h k ‹_›
  · interval_cases k <;> rfl

theorem commit_of_rejected {w : Quad} (h : SeedRejected A w.get) : commit A w s = .next (takeFault .zeroSeed s) := by
  rw [commit, if_pos ((zeroSeeded_iff A w).mpr h), raise]

theorem commit_of_not_rejected {w : Quad} (h : ¬SeedRejected A w.get) :
    commit A w s = .next (complete { s with algo := some A, ctx := A.merge w Quad.zero }) := by
  rw [commit, if_neg (mt (zeroSeeded_iff A w).mp h), done]

end Sys2Proof.Machine

namespace Sys2Proof.Proofs
open Sys2Proof.Machine

/-- Settles O26: the handshake takes the bytes and leaves the rest, and each word is the little-endian word of its bytes. -/
theorem seedentAssemblesTheEntropyBytes : Obligations.SeedentAssemblesTheEntropyBytes := by
  unfold Obligations.SeedentAssemblesTheEntropyBytes
  intro s A bytes rest w hwait hE hA hlen hent hw
  have hwidth := A.width_le
  have hcount : waitCount s = 0 := by simp [waitCount, hwait]
  have hbuffer : waitBuffer s = Quad.zero := by simp [waitBuffer, hwait]
  have hwords (k : Nat) (hk : k < A.width) : (putBytes Quad.zero 0 bytes).get k = w k :=
    BitVec.eq_of_toNat_eq ((toNat_get_putBytes bytes (by omega) (by omega)).trans (hw k hk).symm)
  have hexec : exec (.seedent A.code) s = commit A (putBytes Quad.zero 0 bytes) { s with entropy := rest } := by
    rw [exec_seedent_eq_seedentEnd hE hA, hcount, hbuffer, hent, gather_byteEdges _ _ _ _ _ (by omega),
      gather_full (by omega), seedentEnd]
  have hrejected := seedRejected_congr hwords
  refine ⟨fun h => ⟨_, committed_merge A hwords, ?_⟩, fun h => ?_⟩
  · rw [hexec, commit_of_not_rejected (mt hrejected.mp (not_seedRejected_of_accepted h))]
  · rw [hexec, commit_of_rejected (hrejected.mpr h)]

/-- Settles O27: the handshake takes the bytes before the failing edge and ends there. -/
theorem entropyFailureIsPrecise : Obligations.EntropyFailureIsPrecise := by
  unfold Obligations.EntropyFailureIsPrecise
  intro s A bytes e rest hE hA hlt hent he
  rw [exec_seedent_eq_seedentEnd hE hA, hent, gather_fail (cnt := waitCount s) hlt he, seedentEnd]

/-- Settles O28: after the silent edge the command has received what it would have received without it, so the handshake goes on
alike. -/
theorem silentEdgesOnlyDelaySeedent : Obligations.SilentEdgesOnlyDelaySeedent := by
  unfold Obligations.SilentEdgesOnlyDelaySeedent
  intro s A bytes e rest hE hA hlt hent he
  let cnt := waitCount s + bytes.length
  let buf := putBytes (waitBuffer s) (waitCount s) bytes
  let t : State := { s with waitEnt := true, ecnt := cnt, ebuf := buf, entropy := rest }
  have hexec : exec (.seedent A.code) s = .next t := by
    rw [exec_seedent_eq_seedentEnd hE hA, hent, gather_silent_edge (cnt := waitCount s) hlt he, seedentEnd]
  refine ⟨t, hexec, rfl, rfl, rfl, ⟨rfl, rfl, rfl, rfl, rfl, rfl⟩, ⟨rfl, rfl, rfl, rfl, rfl⟩, rfl, rfl, rfl, ?_⟩
  calc exec (.seedent A.code) t
    _ = seedentEnd A t (gather (8 * A.width) rest cnt buf) := exec_seedent_eq_seedentEnd (s := t) hE hA
    _ = seedentEnd A s (gather (8 * A.width) rest cnt buf) := seedentEnd_frame _ true cnt buf
    _ = seedentEnd A s (gather (8 * A.width) (byteEdges bytes ++ rest) (waitCount s) (waitBuffer s)) := by
      rw [gather_byteEdges _ _ _ (waitCount s) _ hlt.le]
    _ = seedentEnd A { s with entropy := byteEdges bytes ++ rest } _ :=
      (seedentEnd_frame _ s.waitEnt s.ecnt s.ebuf).symm
    _ = exec (.seedent A.code) { s with entropy := byteEdges bytes ++ rest } :=
      (exec_seedent_eq_seedentEnd (s := { s with entropy := byteEdges bytes ++ rest }) hE hA).symm

end Sys2Proof.Proofs
end

section
/-! ### Commands by format, and their words as numbers whose digits are the fields (30 R101 to R107) -/

namespace Sys2Proof

variable {c : Word} {i : Instr}

/-- The commands of Format N (30 R101). -/
def formatN : List Instr := [.nop, .next, .jump, .ljump, .udbl, .uflt, .cmpst, .sreset]

/-- The commands of Format S, by their ALGO field (30 R102). -/
def formatS : List (Nat → Instr) := [.seed, .seedent, .seeddraw]

/-- The commands of Format R, by their width and shift amount (30 R103). -/
def formatR : List (Nat → Nat → Instr) := [.rotl, .rotr, .rotli, .rotri]

/-- A command of one of the formats, with operands that fit their fields; `k` is the width code WC. -/
inductive HasFormat : Instr → Prop
  | n {i : Instr} (hi : i ∈ formatN) : HasFormat i
  | s {f : Nat → Instr} {a : Nat} (hf : f ∈ formatS) (ha : a < 8) : HasFormat (f a)
  | r {f : Nat → Nat → Instr} {k sh : Nat} (hf : f ∈ formatR) (hk : k < 4) (hsh : sh < 64) : HasFormat (f (8 <<< k) sh)

theorem forall_mem_formatS {P : (Nat → Instr) → Prop} (h1 : P .seed) (h2 : P .seedent) (h3 : P .seeddraw) :
    ∀ f ∈ formatS, P f := by
  simp [formatS, h1, h2, h3]

theorem forall_mem_formatR {P : (Nat → Nat → Instr) → Prop} (h1 : P .rotl) (h2 : P .rotr) (h3 : P .rotli) (h4 : P .rotri) :
    ∀ f ∈ formatR, P f := by
  simp [formatR, h1, h2, h3, h4]

/-- The widths are 8 << WC for the four width codes (30 R105). -/
theorem widthOk_iff (w : Nat) : widthOk w = true ↔ ∃ k < 4, 8 <<< k = w := by
  constructor
  · intro h
    simp only [widthOk, Bool.or_eq_true, beq_iff_eq] at h
    obtain ((rfl | rfl) | rfl) | rfl := h
    · exact ⟨0, by decide⟩
    · exact ⟨1, by decide⟩
    · exact ⟨2, by decide⟩
    · exact ⟨3, by decide⟩
  · rintro ⟨k, hk, rfl⟩
    interval_cases k <;> rfl

theorem widthCode_shiftLeft {k : Nat} (hk : k < 4) : widthCode (8 <<< k) = k := by
  interval_cases k <;> rfl

theorem hasFormat_of_rotation {f : Nat → Nat → Instr} (hf : f ∈ formatR) {w sh : Nat}
    (h : (widthOk w && shiftFits sh) = true) : HasFormat (f w sh) := by
  rw [Bool.and_eq_true, widthOk_iff] at h
  obtain ⟨⟨k, hk, rfl⟩, hsh⟩ := h
  exact .r hf hk (of_decide_eq_true hsh)

theorem HasFormat.wellFormed (h : HasFormat i) : i.wellFormed = true := by
  cases h with
  | n hi => exact (by decide : ∀ i ∈ formatN, i.wellFormed = true) i hi
  | @s f a hf ha =>
    have hfits : algoFits a = true := decide_eq_true ha
    exact forall_mem_formatS (P := fun f => (f a).wellFormed = true) hfits hfits hfits f hf
  | @r f k sh hf hk hsh =>
    have hfits : (widthOk (8 <<< k) && shiftFits sh) = true := by
      rw [Bool.and_eq_true, widthOk_iff]
      exact ⟨⟨k, hk, rfl⟩, decide_eq_true hsh⟩
    exact forall_mem_formatR (P := fun f => (f (8 <<< k) sh).wellFormed = true) hfits hfits hfits hfits f hf

theorem hasFormat_iff : HasFormat i ↔ i.wellFormed = true := by
  refine ⟨HasFormat.wellFormed, fun h => ?_⟩
  cases i with
  | nop | next | jump | ljump | udbl | uflt | cmpst | sreset => exact .n (by decide)
  | seed | seedent | seeddraw => exact .s (by simp [formatS]) (of_decide_eq_true h)
  | rotl => exact hasFormat_of_rotation (f := .rotl) (by simp [formatR]) h
  | rotr => exact hasFormat_of_rotation (f := .rotr) (by simp [formatR]) h
  | rotli => exact hasFormat_of_rotation (f := .rotli) (by simp [formatR]) h
  | rotri => exact hasFormat_of_rotation (f := .rotri) (by simp [formatR]) h

/-! #### The word of a command, by its format -/

theorem opcodeOf_lt (i : Instr) : opcodeOf i < 256 := by
  cases i <;> simp [opcodeOf]

theorem operandBits_formatN (hi : i ∈ formatN) : operandBits i = 0 :=
  (by decide : ∀ i ∈ formatN, operandBits i = 0) i hi

theorem operandBits_formatS {f : Nat → Instr} (hf : f ∈ formatS) (a : Nat) : operandBits (f a) = place a 8 :=
  forall_mem_formatS (P := fun f => operandBits (f a) = place a 8) rfl rfl rfl f hf

theorem operandBits_formatR {f : Nat → Nat → Instr} (hf : f ∈ formatR) {k : Nat} (hk : k < 4) (sh : Nat) :
    operandBits (f (8 <<< k) sh) = place k 12 ||| place sh 16 := by
  have hw : operandBits (f (8 <<< k) sh) = place (widthCode (8 <<< k)) 12 ||| place sh 16 :=
    forall_mem_formatR (P := fun f => operandBits (f _ sh) = place (widthCode _) 12 ||| place sh 16) rfl rfl rfl rfl f hf
  rw [hw, widthCode_shiftLeft hk]

theorem toNat_encode_formatN (hi : i ∈ formatN) : (encode i).toNat = opcodeOf i := by
  have ho := opcodeOf_lt i
  rw [encode, operandBits_formatN hi, BitVec.ofNat_eq_ofNat, BitVec.or_zero]
  exact Machine.toNat_field_zero (by omega)

theorem toNat_encode_formatS {f : Nat → Instr} (hf : f ∈ formatS) {a : Nat} (ha : a < 8) :
    (encode (f a)).toNat = 2 ^ 8 * a + opcodeOf (f a) := by
  have ho := opcodeOf_lt (f a)
  have h0 : (place (opcodeOf (f a)) 0).toNat = _ := Machine.toNat_field_zero (by omega)
  rw [encode, operandBits_formatS hf]
  exact (Machine.toNat_or_field (h0.trans_lt ho) (by omega)).trans (by rw [h0])

theorem toNat_encode_formatR {f : Nat → Nat → Instr} (hf : f ∈ formatR) {k sh : Nat} (hk : k < 4) (hsh : sh < 64) :
    (encode (f (8 <<< k) sh)).toNat = 2 ^ 16 * sh + (2 ^ 12 * k + opcodeOf (f (8 <<< k) sh)) := by
  have ho := opcodeOf_lt (f (8 <<< k) sh)
  have h0 : (place (opcodeOf (f (8 <<< k) sh)) 0).toNat = _ := Machine.toNat_field_zero (by omega)
  have h12 : (place (opcodeOf (f (8 <<< k) sh)) 0 ||| place k 12).toNat = _ :=
    Machine.toNat_or_field (h0.trans_lt (by omega)) (by omega)
  rw [encode, operandBits_formatR hf hk, ← BitVec.or_assoc]
  exact (Machine.toNat_or_field (h12.trans_lt (by omega)) (by omega)).trans (by rw [h12, h0])

/-! #### Decoding, by the format of the opcode -/

theorem bits_eq_div (c : Word) (hi lo : Nat) : bits c hi lo = c.toNat / 2 ^ lo % 2 ^ (hi - lo + 1) :=
  Machine.toNat_extractLsb'_div c lo _

theorem decode_of_formatN (hi : i ∈ formatN) (hopc : bits c 7 0 = opcodeOf i) : decode c = decodeN i c := by
  rw [decode, hopc]
  fin_cases hi <;> rfl

theorem decode_of_formatS {f : Nat → Instr} (hf : f ∈ formatS) {a : Nat} (hopc : bits c 7 0 = opcodeOf (f a)) :
    decode c = decodeS f c := by
  refine forall_mem_formatS (P := fun f => bits c 7 0 = opcodeOf (f a) → decode c = decodeS f c) ?_ ?_ ?_ f hf hopc
  all_goals
    intro h
    rw [decode, h]
    rfl

theorem decode_of_formatR {f : Nat → Nat → Instr} (hf : f ∈ formatR) {w sh : Nat}
    (hopc : bits c 7 0 = opcodeOf (f w sh)) : decode c = decodeR f c := by
  refine forall_mem_formatR (P := fun f => bits c 7 0 = opcodeOf (f w sh) → decode c = decodeR f c) ?_ ?_ ?_ ?_ f hf hopc
  all_goals
    intro h
    rw [decode, h]
    rfl

/-- Every digit of the word is a field, so the command's word is read back whole. -/
theorem decode_encode (h : HasFormat i) : decode (encode i) = .ok i := by
  have ho := opcodeOf_lt i
  cases h with
  | n hi =>
    have hn := toNat_encode_formatN hi
    have hopc : bits (encode i) 7 0 = opcodeOf i := by rw [bits_eq_div]; omega
    have hres : bits (encode i) 63 8 = 0 := by rw [bits_eq_div]; omega
    rw [decode_of_formatN hi hopc, decodeN, if_pos hres]
  | @s f a hf ha =>
    have hn := toNat_encode_formatS hf ha
    have hopc : bits (encode (f a)) 7 0 = opcodeOf (f a) := by rw [bits_eq_div]; omega
    have halgo : bits (encode (f a)) 10 8 = a := by rw [bits_eq_div]; omega
    have hres : bits (encode (f a)) 63 11 = 0 := by rw [bits_eq_div]; omega
    rw [decode_of_formatS hf hopc, decodeS, if_pos hres, halgo]
  | @r f k sh hf hk hsh =>
    have hn := toNat_encode_formatR hf hk hsh
    have hopc : bits (encode (f (8 <<< k) sh)) 7 0 = opcodeOf (f (8 <<< k) sh) := by rw [bits_eq_div]; omega
    have hwc : bits (encode (f (8 <<< k) sh)) 13 12 = k := by rw [bits_eq_div]; omega
    have hsh' : bits (encode (f (8 <<< k) sh)) 21 16 = sh := by rw [bits_eq_div]; omega
    have hres : bits (encode (f (8 <<< k) sh)) 63 22 = 0 ∧ bits (encode (f (8 <<< k) sh)) 15 14 = 0 ∧
        bits (encode (f (8 <<< k) sh)) 11 8 = 0 := by
      simp only [bits_eq_div]
      omega
    rw [decode_of_formatR hf hopc, decodeR, if_pos hres, hwc, hsh']

/-! #### What a word that decodes is, by the format of its command -/

theorem encode_of_decodeN (hi : i ∈ formatN) (hopc : bits c 7 0 = opcodeOf i) {j : Instr} (h : decodeN i c = .ok j) :
    HasFormat j ∧ encode j = c := by
  unfold decodeN at h
  split at h
  · cases h
    refine ⟨.n hi, BitVec.eq_of_toNat_eq ?_⟩
    have hc := c.isLt
    have hn := toNat_encode_formatN hi
    simp only [bits_eq_div] at *
    omega
  · cases h

theorem encode_of_decodeS {f : Nat → Instr} (hf : f ∈ formatS) (hopc : bits c 7 0 = opcodeOf (f (bits c 10 8)))
    {j : Instr} (h : decodeS f c = .ok j) : HasFormat j ∧ encode j = c := by
  unfold decodeS at h
  split at h
  · cases h
    have ha : bits c 10 8 < 8 := by rw [bits_eq_div]; omega
    refine ⟨.s hf ha, BitVec.eq_of_toNat_eq ?_⟩
    rw [toNat_encode_formatS hf ha, ← hopc]
    have hc := c.isLt
    simp only [bits_eq_div] at *
    omega
  · cases h

theorem encode_of_decodeR {f : Nat → Nat → Instr} (hf : f ∈ formatR)
    (hopc : bits c 7 0 = opcodeOf (f (8 <<< bits c 13 12) (bits c 21 16)))
    {j : Instr} (h : decodeR f c = .ok j) : HasFormat j ∧ encode j = c := by
  unfold decodeR at h
  split at h
  · cases h
    have hk : bits c 13 12 < 4 := by rw [bits_eq_div]; omega
    have hsh : bits c 21 16 < 64 := by rw [bits_eq_div]; omega
    refine ⟨.r hf hk hsh, BitVec.eq_of_toNat_eq ?_⟩
    rw [toNat_encode_formatR hf hk hsh, ← hopc]
    have hc := c.isLt
    simp only [bits_eq_div] at *
    omega
  · cases h

/-- No bit of a legal word is dropped: its reserved bits are 0 and the others are fields. -/
theorem encode_of_decode (h : decode c = .ok i) : HasFormat i ∧ encode i = c := by
  unfold decode at h
  split at h
  case h_2 | h_3 | h_4 => exact encode_of_decodeS (by simp [formatS]) ‹_› h
  case h_11 | h_12 | h_13 | h_14 => exact encode_of_decodeR (by simp [formatR]) ‹_› h
  case h_16 => cases h
  all_goals exact encode_of_decodeN (by decide) ‹_› h

theorem decode_eq_ok_iff : decode c = .ok i ↔ HasFormat i ∧ encode i = c := by
  refine ⟨encode_of_decode, ?_⟩
  rintro ⟨hi, rfl⟩
  exact decode_encode hi

end Sys2Proof

namespace Sys2Proof.Proofs

/-- Settles O2: a well-formed command has one of the three formats, and its word's digits are the fields that format reads. -/
theorem decodeInvertsEncode : Obligations.DecodeInvertsEncode := by
  unfold Obligations.DecodeInvertsEncode
  intro i hi
  exact decode_encode (hasFormat_iff.mpr hi)

/-- Settles O3: the fields of a word that decodes are its digits, and every other digit is 0. -/
theorem decodedWordIsTheEncoding : Obligations.DecodedWordIsTheEncoding := by
  unfold Obligations.DecodedWordIsTheEncoding
  intro c i h
  exact (encode_of_decode h).imp_left HasFormat.wellFormed

end Sys2Proof.Proofs
end

section
/-! ### The opcode table in match and mask form (30 R108) -/

namespace Sys2Proof

variable {c : Word} {i : Instr} {r : TableRow}

/-- The row of the opcode table for a command of the format with mask `m`. -/
def rowOf (m : Word) (i : Instr) : TableRow := ⟨i.mnemonic, place (opcodeOf i) 0, m⟩

theorem rowOf_formatS {f : Nat → Instr} (hf : f ∈ formatS) (a : Nat) : rowOf maskS (f a) = rowOf maskS (f 0) :=
  forall_mem_formatS (P := fun f => rowOf maskS (f a) = rowOf maskS (f 0)) rfl rfl rfl f hf

theorem rowOf_formatR {f : Nat → Nat → Instr} (hf : f ∈ formatR) (w sh : Nat) :
    rowOf maskR (f w sh) = rowOf maskR (f 0 0) :=
  forall_mem_formatR (P := fun f => rowOf maskR (f w sh) = rowOf maskR (f 0 0)) rfl rfl rfl rfl f hf

theorem mem_opcodeTable_iff : r ∈ opcodeTable ↔
    (∃ i ∈ formatN, rowOf maskN i = r) ∨ (∃ f ∈ formatS, rowOf maskS (f 0) = r) ∨
      ∃ f ∈ formatR, rowOf maskR (f 0 0) = r := by
  constructor
  · revert r
    decide
  · rintro (⟨i, hi, rfl⟩ | ⟨f, hf, rfl⟩ | ⟨f, hf, rfl⟩)
    · exact (by decide : ∀ i ∈ formatN, rowOf maskN i ∈ opcodeTable) i hi
    · exact (by decide : ∀ f ∈ formatS, rowOf maskS (f 0) ∈ opcodeTable) f hf
    · exact (by decide : ∀ f ∈ formatR, rowOf maskR (f 0 0) ∈ opcodeTable) f hf

/-! #### The word of a command has its row's bits -/

theorem place_and_maskS {a : Nat} (ha : a < 8) : place a 8 &&& maskS = 0 :=
  (by decide : ∀ a < 8, place a 8 &&& maskS = 0) a ha

theorem place_and_maskR {k sh : Nat} (hk : k < 4) (hsh : sh < 64) : (place k 12 ||| place sh 16) &&& maskR = 0 := by
  have h12 : place k 12 &&& maskR = 0 := (by decide : ∀ k < 4, place k 12 &&& maskR = 0) k hk
  have h16 : place sh 16 &&& maskR = 0 := (by decide : ∀ sh < 64, place sh 16 &&& maskR = 0) sh hsh
  rw [BitVec.and_or_distrib_right, h12, h16]
  rfl

theorem pattern_and_mask (hr : r ∈ opcodeTable) : r.pattern &&& r.mask = r.pattern :=
  (by decide : ∀ r ∈ opcodeTable, r.pattern &&& r.mask = r.pattern) r hr

theorem hits_encode {m : Word} (hr : rowOf m i ∈ opcodeTable) (hfields : operandBits i &&& m = 0) :
    (rowOf m i).hits (encode i) = true := by
  have hopc : place (opcodeOf i) 0 &&& m = place (opcodeOf i) 0 := pattern_and_mask hr
  rw [TableRow.hits, beq_iff_eq]
  change (place (opcodeOf i) 0 ||| operandBits i) &&& m = place (opcodeOf i) 0
  rw [BitVec.and_or_distrib_right, hopc, hfields, BitVec.ofNat_eq_ofNat, BitVec.or_zero]

theorem exists_row_hits_encode (h : HasFormat i) : ∃ r ∈ opcodeTable, r.hits (encode i) = true ∧ r.mnemonic = i.mnemonic := by
  cases h with
  | n hi =>
    have hr : rowOf maskN i ∈ opcodeTable := mem_opcodeTable_iff.mpr (.inl ⟨i, hi, rfl⟩)
    refine ⟨_, hr, hits_encode hr ?_, rfl⟩
    rw [operandBits_formatN hi]
    rfl
  | @s f a hf ha =>
    have hr : rowOf maskS (f a) ∈ opcodeTable := mem_opcodeTable_iff.mpr (.inr (.inl ⟨f, hf, (rowOf_formatS hf a).symm⟩))
    refine ⟨_, hr, hits_encode hr ?_, rfl⟩
    rw [operandBits_formatS hf, place_and_maskS ha]
  | @r f k sh hf hk hsh =>
    have hr : rowOf maskR (f (8 <<< k) sh) ∈ opcodeTable :=
      mem_opcodeTable_iff.mpr (.inr (.inr ⟨f, hf, (rowOf_formatR hf (8 <<< k) sh).symm⟩))
    refine ⟨_, hr, hits_encode hr ?_, rfl⟩
    rw [operandBits_formatR hf hk, place_and_maskR hk hsh]

/-! #### A word with a row's bits decodes to its command -/

/-- Under a mask that covers the field `[hi:lo]`, a word with the row's bits has the row's value there. -/
theorem bits_eq_of_hits (h : r.hits c = true) {hi lo : Nat} (hm : r.mask.extractLsb' lo (hi - lo + 1) = BitVec.allOnes _) :
    bits c hi lo = bits r.pattern hi lo := by
  rw [TableRow.hits, beq_iff_eq] at h
  rw [bits, bits, ← h, BitVec.extractLsb'_and, hm, BitVec.and_allOnes]

theorem opcode_of_hits {m : Word} (h : (rowOf m i).hits c = true) (hm : m.extractLsb' 0 8 = BitVec.allOnes 8) :
    bits c 7 0 = opcodeOf i := by
  rw [bits_eq_of_hits h hm, bits]
  change ((place (opcodeOf i) 0).extractLsb' 0 8).toNat = _
  rw [Laws.place_zero_low_byte, BitVec.toNat_ofNat]
  exact Nat.mod_eq_of_lt (opcodeOf_lt i)

theorem reserved_of_hits {m : Word} (h : (rowOf m i).hits c = true) {hi lo : Nat}
    (hm : m.extractLsb' lo (hi - lo + 1) = BitVec.allOnes _) (hlo : 8 ≤ lo) : bits c hi lo = 0 := by
  have ho : opcodeOf i < 2 ^ lo := (opcodeOf_lt i).trans_le (Nat.pow_le_pow_right two_pos hlo)
  have hn : (place (opcodeOf i) 0).toNat = opcodeOf i := Machine.toNat_field_zero (by have := opcodeOf_lt i; omega)
  rw [bits_eq_of_hits h hm, bits_eq_div]
  change (place (opcodeOf i) 0).toNat / _ % _ = 0
  rw [hn, Nat.div_eq_of_lt ho, Nat.zero_mod]

theorem decode_of_hits (hr : r ∈ opcodeTable) (h : r.hits c = true) : ∃ i, decode c = .ok i ∧ i.mnemonic = r.mnemonic := by
  obtain ⟨i, hi, rfl⟩ | ⟨f, hf, rfl⟩ | ⟨f, hf, rfl⟩ := mem_opcodeTable_iff.mp hr
  · have hres : bits c 63 8 = 0 := reserved_of_hits h (by decide) (by decide)
    refine ⟨i, ?_, rfl⟩
    rw [decode_of_formatN hi (opcode_of_hits h (by decide)), decodeN, if_pos hres]
  · have hres : bits c 63 11 = 0 := reserved_of_hits h (by decide) (by decide)
    refine ⟨f (bits c 10 8), ?_, congrArg TableRow.mnemonic (rowOf_formatS hf _)⟩
    rw [decode_of_formatS hf (opcode_of_hits h (by decide)), decodeS, if_pos hres]
  · have hres : bits c 63 22 = 0 ∧ bits c 15 14 = 0 ∧ bits c 11 8 = 0 :=
      ⟨reserved_of_hits h (by decide) (by decide), reserved_of_hits h (by decide) (by decide),
        reserved_of_hits h (by decide) (by decide)⟩
    refine ⟨f (8 <<< bits c 13 12) (bits c 21 16), ?_, congrArg TableRow.mnemonic (rowOf_formatR hf _ _)⟩
    rw [decode_of_formatR hf (opcode_of_hits h (by decide)), decodeR, if_pos hres]

/-- The opcodes of the rows differ, and every mask covers the opcode. -/
theorem row_unique {r' : TableRow} (hr : r ∈ opcodeTable) (hr' : r' ∈ opcodeTable) (h : r.hits c = true)
    (h' : r'.hits c = true) : r = r' := by
  have hmask : ∀ r ∈ opcodeTable, r.mask.extractLsb' 0 8 = BitVec.allOnes 8 := by decide
  have hopc : bits r.pattern 7 0 = bits r'.pattern 7 0 :=
    (bits_eq_of_hits h (hmask r hr)).symm.trans (bits_eq_of_hits h' (hmask r' hr'))
  have hinj : ∀ r ∈ opcodeTable, ∀ r' ∈ opcodeTable, bits r.pattern 7 0 = bits r'.pattern 7 0 → r = r' := by decide
  exact hinj r hr r' hr' hopc

end Sys2Proof

namespace Sys2Proof.Proofs

/-- Settles O4: the row of a command has the mask of its format, which covers the opcode and the reserved bits. -/
theorem legalWordsAreTheTablesWords : Obligations.LegalWordsAreTheTablesWords := by
  unfold Obligations.LegalWordsAreTheTablesWords
  refine ⟨fun c i h => ?_, fun c r hr h => decode_of_hits hr h, fun c r hr r' hr' h h' => row_unique hr hr' h h'⟩
  obtain ⟨hi, rfl⟩ := encode_of_decode h
  exact exists_row_hits_encode hi

end Sys2Proof.Proofs
end

section
/-! ### The worked encodings and the algorithm codes (30 R104, R114) -/

namespace Sys2Proof.Machine

theorem Algo.ofCode_code (A : Algo) : Algo.ofCode A.code = some A := by cases A <;> rfl

theorem Algo.code_of_ofCode {a : Nat} {A : Algo} (h : Algo.ofCode a = some A) : A.code = a := by
  unfold Algo.ofCode at h
  split at h <;> cases h <;> rfl

theorem Algo.ofCode_eq_some_iff {a : Nat} {A : Algo} : Algo.ofCode a = some A ↔ A.code = a := by
  refine ⟨Algo.code_of_ofCode, ?_⟩
  rintro rfl
  exact A.ofCode_code

end Sys2Proof.Machine

namespace Sys2Proof.Proofs
open Sys2Proof.Machine

/-- Settles O1: each row's command has the row's word, and a command's word decodes to it. -/
theorem workedEncodingsAgree : Obligations.WorkedEncodingsAgree := by
  unfold Obligations.WorkedEncodingsAgree
  simp only [decode_eq_ok_iff, hasFormat_iff]
  decide

/-- Settles O5, by the tables of codes and widths. -/
theorem algorithmCodesAndWidths : Obligations.AlgorithmCodesAndWidths := by
  unfold Obligations.AlgorithmCodesAndWidths
  exact ⟨⟨rfl, rfl⟩, ⟨rfl, rfl⟩, ⟨rfl, rfl⟩, ⟨rfl, rfl⟩, ⟨rfl, rfl⟩, fun _ _ => Algo.ofCode_eq_some_iff⟩

end Sys2Proof.Proofs
end

section
/-! ### The rotation commands (40 R130 to R137) -/

namespace Sys2Proof.Machine

/-! #### The shift-range check, said once for the four commands (40 R131) -/

/-- A command that faults ROT_RANGE in `s` when its shift is out of range, and completes with `u` otherwise. -/
def shiftChecked (w n : Nat) (s u : State) : Outcome := if shiftOutOfRange w n then raise .rotRange s else done u

theorem exec_rotl (w n : Nat) (s : State) :
    exec (.rotl w n) s = shiftChecked w n s { s with out := rotatedLeft w n s.operand } := rfl

theorem exec_rotr (w n : Nat) (s : State) :
    exec (.rotr w n) s = shiftChecked w n s { s with out := rotatedRight w n s.operand } := rfl

theorem exec_rotli (w n : Nat) (s : State) :
    exec (.rotli w n) s = shiftChecked w n s { s with operand := rotatedLeft w n s.operand } := rfl

theorem exec_rotri (w n : Nat) (s : State) :
    exec (.rotri w n) s = shiftChecked w n s { s with operand := rotatedRight w n s.operand } := rfl

theorem shiftChecked_of_inRange {w n : Nat} (h : 0 < n ∧ n < w) (s u : State) :
    shiftChecked w n s u = .next (complete u) := by
  have hn : ¬shiftOutOfRange w n = true := by
    rw [shiftOutOfRange_iff]
    omega
  exact if_neg hn

theorem shiftChecked_of_outOfRange {w n : Nat} (h : n = 0 ∨ w ≤ n) (s u : State) :
    shiftChecked w n s u = .next (takeFault .rotRange s) :=
  if_pos ((shiftOutOfRange_iff w n).mpr h)

theorem width_le_64 {w : Nat} (h : w ∈ [8, 16, 32, 64]) : w ≤ 64 :=
  (by decide : ∀ w ∈ [8, 16, 32, 64], w ≤ 64) w h

/-! #### Where a bit comes from -/

theorem leftSource_lt {w n i : Nat} (hi : i < w) : leftSource w n i < w := Nat.mod_lt _ (by omega)

/-- Left by `w - n` takes each bit from where right by `n` takes it. -/
theorem leftSource_sub {w n : Nat} (hn : n ≤ w) : leftSource w (w - n) = rightSource w n := by
  funext i
  rw [leftSource, rightSource, Nat.sub_sub_self hn]

theorem leftSource_zero {w i : Nat} (hi : i < w) : leftSource w 0 i = i := by
  rw [leftSource, Nat.sub_zero, Nat.add_mod_right, Nat.mod_eq_of_lt hi]

/-- Two left shifts of the source add up modulo the width: where their sum passes the width, one whole turn is dropped. -/
theorem leftSource_leftSource {w n m : Nat} (hn : n < w) (hm : m < w) (i : Nat) :
    leftSource w n (leftSource w m i) = leftSource w ((n + m) % w) i := by
  rw [leftSource, leftSource, leftSource, Nat.mod_add_mod]
  obtain h | h := Nat.lt_or_ge (n + m) w
  · have hturn : i + (w - m) + (w - n) = i + (w - (n + m)) + w := by omega
    rw [Nat.mod_eq_of_lt h, hturn, Nat.add_mod_right]
  · have hmod : (n + m) % w = n + m - w := by rw [Nat.mod_eq_sub_mod h, Nat.mod_eq_of_lt (by omega)]
    have hsum : i + (w - m) + (w - n) = i + (w - (n + m - w)) := by omega
    rw [hmod, hsum]

/-! #### The rotated values, bit by bit -/

theorem getLsbD_rotl_eq_leftSource {w n : Nat} (x : BitVec w) (hn : n < w) (i : Nat) :
    (rotl w x n).getLsbD i = (decide (i < w) && x.getLsbD (leftSource w n i)) := by
  rw [getLsbD_rotl x hn]
  by_cases hi : i < w
  · by_cases hs : i < n
    · have hsrc : leftSource w n i = w - n + i := by
        rw [leftSource, Nat.add_comm, Nat.mod_eq_of_lt (by omega)]
      rw [if_pos hs, hsrc]
    · have hturn : i + (w - n) = i - n + w := by omega
      have hsrc : leftSource w n i = i - n := by
        rw [leftSource, hturn, Nat.add_mod_right, Nat.mod_eq_of_lt (by omega)]
      rw [if_neg hs, hsrc]
  · simp [hi]

theorem rotatedLeft_bits {w n : Nat} (hw : w ≤ 64) (hn : n < w) (x : Word) :
    RotatedBits w (leftSource w n) x (rotatedLeft w n x) := by
  intro i
  rw [rotatedLeft, BitVec.getLsbD_setWidth, getLsbD_rotl_eq_leftSource _ hn, BitVec.getLsbD_setWidth]
  by_cases hi : i < w
  · simp [hi, leftSource_lt hi, hi.trans_le hw]
  · simp [hi]

theorem rotatedRight_eq_rotatedLeft {w n : Nat} (hn : n ≤ w) (x : Word) : rotatedRight w n x = rotatedLeft w (w - n) x := by
  rw [rotatedRight, rotatedLeft, rotr_eq_rotl _ hn]

theorem rotatedRight_bits {w n : Nat} (hw : w ≤ 64) (h : 0 < n ∧ n < w) (x : Word) :
    RotatedBits w (rightSource w n) x (rotatedRight w n x) := by
  rw [rotatedRight_eq_rotatedLeft h.2.le, ← leftSource_sub h.2.le]
  exact rotatedLeft_bits hw (by omega) x

/-- The sources of the bits below the width fix the value. -/
theorem RotatedBits.unique {w : Nat} {f g : Nat → Nat} {x v u : Word} (hv : RotatedBits w f x v) (hu : RotatedBits w g x u)
    (hfg : ∀ i, i < w → f i = g i) : v = u := by
  refine BitVec.eq_of_getLsbD_eq fun i _ => ?_
  rw [hv i, hu i]
  by_cases hi : i < w
  · rw [hfg i hi]
  · simp [hi]

theorem RotatedBits.comp {w : Nat} {f g : Nat → Nat} {x v u : Word} (hv : RotatedBits w f x v) (hu : RotatedBits w g v u)
    (hg : ∀ i, i < w → g i < w) : RotatedBits w (f ∘ g) x u := by
  intro i
  rw [hu i, hv (g i)]
  by_cases hi : i < w
  · simp [hi, hg i hi]
  · simp [hi]

theorem rotatedLeft_rotatedLeft {w n m : Nat} (hw : w ≤ 64) (hn : n < w) (hm : m < w) (x : Word) :
    rotatedLeft w m (rotatedLeft w n x) = rotatedLeft w ((n + m) % w) x :=
  have htwice := (rotatedLeft_bits hw hn x).comp (rotatedLeft_bits hw hm _) fun _ => leftSource_lt
  htwice.unique (rotatedLeft_bits hw (Nat.mod_lt _ (by omega)) x) fun i _ => leftSource_leftSource hn hm i

/-- A rotation by nothing leaves OPERAND[W-1:0] and clears the bits above it. -/
theorem rotatedLeft_zero {w : Nat} (hw : w ≤ 64) (hpos : 0 < w) (x : Word) :
    rotatedLeft w 0 x = (x.setWidth w).setWidth 64 := by
  have hkept : RotatedBits w id x ((x.setWidth w).setWidth 64) := by
    intro i
    rw [BitVec.getLsbD_setWidth, BitVec.getLsbD_setWidth]
    by_cases hi : i < w
    · simp [hi, hi.trans_le hw]
    · simp [hi]
  exact (rotatedLeft_bits hw hpos x).unique hkept fun i => leftSource_zero

/-- Two ROTLI in a row leave what one rotation of OPERAND by their sum modulo the width would. -/
theorem exec_rotli_rotli {w n m : Nat} (hw : w ≤ 64) (hn : 0 < n ∧ n < w) (hm : 0 < m ∧ m < w) (s : State) :
    ∃ t, exec (.rotli w n) s = .next t ∧
      exec (.rotli w m) t = .next (complete { s with operand := rotatedLeft w ((n + m) % w) s.operand }) := by
  refine ⟨_, (exec_rotli w n s).trans (shiftChecked_of_inRange hn s _), ?_⟩
  rw [exec_rotli, shiftChecked_of_inRange hm, complete_operand, rotatedLeft_rotatedLeft hw hn.2 hm.2]
  rfl

end Sys2Proof.Machine

namespace Sys2Proof.Proofs
open Sys2Proof.Machine

/-- Settles O6: the shift-range check decides, and the rotated value has the bits of `leftSource`. -/
theorem leftRotationsMoveTheOperandsBits : Obligations.LeftRotationsMoveTheOperandsBits := by
  unfold Obligations.LeftRotationsMoveTheOperandsBits
  intro s w n hw
  rw [exec_rotl, exec_rotli]
  refine ⟨fun h => ⟨rotatedLeft w n s.operand, rotatedLeft_bits (width_le_64 hw) h.2 _, ?_, ?_⟩, fun h => ⟨?_, ?_⟩⟩
  · exact shiftChecked_of_inRange h _ _
  · exact shiftChecked_of_inRange h _ _
  · exact shiftChecked_of_outOfRange h _ _
  · exact shiftChecked_of_outOfRange h _ _

/-- Settles O7: the shift-range check decides, and the rotated value has the bits of `rightSource`. -/
theorem rightRotationsMoveTheOperandsBits : Obligations.RightRotationsMoveTheOperandsBits := by
  unfold Obligations.RightRotationsMoveTheOperandsBits
  intro s w n hw
  rw [exec_rotr, exec_rotri]
  refine ⟨fun h => ⟨rotatedRight w n s.operand, rotatedRight_bits (width_le_64 hw) h _, ?_, ?_⟩, fun h => ⟨?_, ?_⟩⟩
  · exact shiftChecked_of_inRange h _ _
  · exact shiftChecked_of_inRange h _ _
  · exact shiftChecked_of_outOfRange h _ _
  · exact shiftChecked_of_outOfRange h _ _

/-- Settles O8: both shifts are in range, and right by `w - n` is left by `n` (`rotr_eq_rotl`). -/
theorem leftAndRightRotationsAreDual : Obligations.LeftAndRightRotationsAreDual := by
  unfold Obligations.LeftAndRightRotationsAreDual
  intro w n _ hpos hn
  have hback : w - (w - n) = n := Nat.sub_sub_self hn.le
  have hright : 0 < w - n ∧ w - n < w := by omega
  refine ⟨fun x => by rw [rotr_eq_rotl x hright.2.le, hback], fun s => ?_⟩
  have hvalue : rotatedRight w (w - n) s.operand = rotatedLeft w n s.operand := by
    rw [rotatedRight_eq_rotatedLeft hright.2.le, hback]
  constructor
  · rw [exec_rotl, exec_rotr, hvalue, shiftChecked_of_inRange ⟨hpos, hn⟩, shiftChecked_of_inRange hright]
  · rw [exec_rotli, exec_rotri, hvalue, shiftChecked_of_inRange ⟨hpos, hn⟩, shiftChecked_of_inRange hright]

/-- Settles O9: the shifts add up modulo the width (`exec_rotli_rotli`), and a whole turn is a rotation by nothing. -/
theorem leftRotationsCompose : Obligations.LeftRotationsCompose := by
  unfold Obligations.LeftRotationsCompose
  intro s w n m hw hn0 hn hm0 hm
  have hw64 : w ≤ 64 := width_le_64 hw
  obtain ⟨t, hfirst, hsecond⟩ := exec_rotli_rotli hw64 ⟨hn0, hn⟩ ⟨hm0, hm⟩ s
  refine ⟨t, _, hfirst, hsecond, fun hturn => ?_, fun hsum => ?_⟩
  · rw [complete_operand, hturn, Nat.mod_self]
    exact rotatedLeft_zero hw64 (by omega) s.operand
  · rw [exec_rotli, shiftChecked_of_inRange ⟨Nat.pos_of_ne_zero hsum, Nat.mod_lt _ (by omega)⟩]

end Sys2Proof.Proofs
end

section
/-! ### NEXT, JUMP and LJUMP read the context alone (41 R150, R151, R157; 45 R228) -/

namespace Sys2Proof.Machine

variable {A : Algo} {K : Algo → Option (List Word)} {i : Instr} {is : List Instr} {s t : State}

theorem exec_next_of_none (h : s.algo = none) : exec .next s = .next (takeFault .notSeeded s) := by
  change execNext s = _
  rw [execNext, h, raise]

theorem exec_next_of_some (h : s.algo = some A) : exec .next s = .next (complete (drawTo (fun o => o) A s)) := by
  change execNext s = _
  simp only [execNext, h, done]

theorem jumpBy_unsupported (hA : s.algo = some A) (hK : K A = none) : jumpBy K s = .next (takeFault .unsupportedOp s) := by
  simp only [jumpBy, hA, hK, raise]

theorem jumpBy_of_some {ks : List Word} (hA : s.algo = some A) (hK : K A = some ks) :
    jumpBy K s = .next (complete { s with ctx := jumpWith A ks s.ctx }) := by
  simp only [jumpBy, hA, hK, done]

/-- Both states hold the same context of algorithm `A`; whatever else they hold may differ. -/
structure SameContext (A : Algo) (s t : State) : Prop where
  left : s.algo = some A
  right : t.algo = some A
  ctx : s.ctx = t.ctx

theorem SameContext.after_jumpBy (h : SameContext A s t) (K : Algo → Option (List Word)) :
    ∃ s' t', jumpBy K s = .next s' ∧ jumpBy K t = .next t' ∧ SameContext A s' t' := by
  cases hK : K A with
  | none => exact ⟨_, _, jumpBy_unsupported h.left hK, jumpBy_unsupported h.right hK, h.left, h.right, h.ctx⟩
  | some ks =>
    exact ⟨_, _, jumpBy_of_some h.left hK, jumpBy_of_some h.right hK, h.left, h.right, congrArg (jumpWith A ks) h.ctx⟩

/-- NEXT, JUMP and LJUMP leave contexts that agree where they found contexts that agree, and NEXT gives the same output. -/
theorem SameContext.after_exec (h : SameContext A s t) (hi : i = .next ∨ i = .jump ∨ i = .ljump) :
    ∃ s' t', exec i s = .next s' ∧ exec i t = .next t' ∧ SameContext A s' t' ∧ (i = .next → s'.out = t'.out) := by
  obtain rfl | rfl | rfl := hi
  · exact ⟨_, _, exec_next_of_some h.left, exec_next_of_some h.right,
      ⟨h.left, h.right, congrArg (advance A) h.ctx⟩, fun _ => congrArg (fun q => (genStep A q).1) h.ctx⟩
  · obtain ⟨s', t', hs, ht, h'⟩ := h.after_jumpBy jumpConst
    exact ⟨s', t', hs, ht, h', nofun⟩
  · obtain ⟨s', t', hs, ht, h'⟩ := h.after_jumpBy ljumpConst
    exact ⟨s', t', hs, ht, h', nofun⟩

theorem nextOutputs_cons (h : exec i s = .next t) :
    nextOutputs (i :: is) s = if i = .next then t.out :: nextOutputs is t else nextOutputs is t := by
  rw [nextOutputs, h]

theorem SameContext.nextOutputs_eq (h : SameContext A s t) (his : ∀ i ∈ is, i = .next ∨ i = .jump ∨ i = .ljump) :
    nextOutputs is s = nextOutputs is t := by
  induction is generalizing s t with
  | nil => rfl
  | cons i is ih =>
    obtain ⟨hi, his⟩ := List.forall_mem_cons.mp his
    obtain ⟨s', t', hs, ht, h', hout⟩ := h.after_exec hi
    rw [nextOutputs_cons hs, nextOutputs_cons ht, ih h' his]
    split
    · rw [hout ‹_›]
    · rfl

end Sys2Proof.Machine

namespace Sys2Proof.Proofs
open Sys2Proof.Machine

/-- Settles O15, by induction on the commands: each keeps the agreement of the contexts (`SameContext.after_exec`). -/
theorem equalContextsGiveEqualOutputs : Obligations.EqualContextsGiveEqualOutputs := by
  unfold Obligations.EqualContextsGiveEqualOutputs
  intro is s t his hseeded halgo hctx
  obtain ⟨A, hA⟩ := Option.ne_none_iff_exists'.mp hseeded
  exact SameContext.nextOutputs_eq ⟨hA, halgo ▸ hA, hctx⟩ his

end Sys2Proof.Proofs
end

section
/-! ### SEED, SEEDDRAW, CMPST and the control commands (41 R152 to R162) -/

namespace Sys2Proof.Machine

variable {A B : Algo} {a : Nat} {s : State} {buf : Quad} {w : Nat → Word}

/-! #### The commands, by their checks -/

theorem exec_seed_of_unusable (h : ¬algoUsable s.build a) : exec (.seed a) s = .next (takeFault .illegalAlgo s) := by
  change execSeed a s = _
  rw [execSeed, target_unusable h, raise]

theorem exec_seed (h : algoUsable s.build A.code) : exec (.seed A.code) s = commit A s.seed s := by
  change execSeed A.code s = _
  rw [execSeed, target_code h]

theorem exec_seeddraw_of_unusable (h : ¬algoUsable s.build a) :
    exec (.seeddraw a) s = .next (takeFault .illegalAlgo s) := by
  change execSeeddraw a s = _
  rw [execSeeddraw, target_unusable h, raise]

theorem exec_seeddraw_of_none (h : algoUsable s.build a) (hs : s.algo = none) :
    exec (.seeddraw a) s = .next (takeFault .notSeeded s) := by
  obtain ⟨A, hA⟩ := target_usable h
  change execSeeddraw a s = _
  simp only [execSeeddraw, hA, hs, raise]

theorem exec_seeddraw (h : algoUsable s.build A.code) (hs : s.algo = some B) :
    exec (.seeddraw A.code) s = commit A (drawWords B A.width 0 Quad.zero s.ctx) s := by
  change execSeeddraw A.code s = _
  simp only [execSeeddraw, target_code h, hs]

theorem exec_cmpst_of_none (h : s.algo = none) : exec .cmpst s = .next (takeFault .notSeeded s) := by
  change execCmpst s = _
  rw [execCmpst, h, raise]

theorem exec_cmpst_of_some (h : s.algo = some A) : exec .cmpst s = .next (complete { s with eq := eqFlag A s }) := by
  change execCmpst s = _
  simp only [execCmpst, h, done]

/-! #### The commit, by what its live words are -/

theorem commit_rejects (hw : ∀ k, k < A.width → buf.get k = w k) (h : SeedRejected A w) :
    commit A buf s = .next (takeFault .zeroSeed s) :=
  commit_of_rejected ((seedRejected_congr hw).mpr h)

theorem commit_accepts (hw : ∀ k, k < A.width → buf.get k = w k) (h : SeedAccepted A w) :
    ∃ q, Committed A w q ∧ commit A buf s = .next (complete { s with algo := some A, ctx := q }) :=
  ⟨_, committed_merge A hw, commit_of_not_rejected (mt (seedRejected_congr hw).mp (not_seedRejected_of_accepted h))⟩

/-- Word k of a drawn seed (41 R156). -/
def drawnWord (B : Algo) (t : Quad) (k : Nat) : Word := (genStep B ((advance B)^[k] t)).1

theorem get_drawWords_eq_drawnWord (B : Algo) (t : Quad) {k : Nat} (hk : k < A.width) :
    (drawWords B A.width 0 Quad.zero t).get k = drawnWord B t k := by
  have hwidth := A.width_le
  rw [get_drawWords B A.width 0 Quad.zero t k (by omega) (by omega), if_pos (by omega), Nat.sub_zero, drawnWord]

/-! #### The SplitMix64 output function sends only 0 to 0 (42 R181) -/

theorem eq_zero_of_xor_ushiftRight {v : Word} {k : Nat} (hk : 0 < k) (h : v ^^^ v >>> k = 0) : v = 0 := by
  by_contra hne
  have hv : v.toNat = v.toNat / 2 ^ k := by
    rw [← Nat.shiftRight_eq_div_pow, ← BitVec.toNat_ushiftRight, ← BitVec.xor_eq_zero_iff.mp h]
  have hpos : 0 < v.toNat := Nat.pos_of_ne_zero fun h0 => hne (BitVec.eq_of_toNat_eq h0)
  exact (Nat.div_lt_self hpos (Nat.one_lt_two_pow hk.ne')).ne' hv

/-- A mixing round by an odd constant, given with its inverse `m'`, sends only 0 to 0. -/
theorem eq_zero_of_mixRound {k : Nat} {m v : Word} (m' : Word) (hk : 0 < k) (hm : m * m' = 1) (h : mixRound k m v = 0) :
    v = 0 := by
  refine eq_zero_of_xor_ushiftRight hk ?_
  calc v ^^^ v >>> k
    _ = mixRound k m v * m' := by rw [mixRound, mul_assoc, hm, mul_one]
    _ = 0 := by rw [h, zero_mul]

theorem stepSplitMix64_state_eq_zero {x : Word} (h : (stepSplitMix64 x).1 = 0) : (stepSplitMix64 x).2 = 0 :=
  eq_zero_of_mixRound 0x96DE1B173F119089#64 (by decide) (by decide)
    (eq_zero_of_mixRound 0x319642B2D24D8EC3#64 (by decide) (by decide) (eq_zero_of_xor_ushiftRight (by decide) h))

/-- Two successive draws are never both zero: their states would be, and successive states differ. -/
theorem exists_drawnWord_splitmix64_ne_zero (t : Quad) {n : Nat} (hn : 1 < n) :
    ∃ k, k < n ∧ drawnWord .splitmix64 t k ≠ 0 := by
  by_contra! hzero
  have hfirst : t.w0 + 0x9E3779B97F4A7C15#64 = 0 := stepSplitMix64_state_eq_zero (hzero 0 (by omega))
  have hsecond : t.w0 + 0x9E3779B97F4A7C15#64 + 0x9E3779B97F4A7C15#64 = 0 := stepSplitMix64_state_eq_zero (hzero 1 hn)
  rw [hfirst] at hsecond
  exact absurd hsecond (by decide)

theorem seedAccepted_drawn_splitmix64 (A : Algo) (t : Quad) : SeedAccepted A (drawnWord .splitmix64 t) := by
  cases A with
  | splitmix64 => exact .inl rfl
  | _ => exact .inr (exists_drawnWord_splitmix64_ne_zero t (by decide))

/-! #### A saved context may be committed again (41 R162) -/

theorem algoUsable_code {b : Build} (h : hasGen b A = true) : algoUsable b A.code :=
  ⟨by cases A <;> decide, by cases A <;> decide, h⟩

theorem Algo.merge_congr {p q : Quad} (h : ∀ k, k < A.width → p.get k = q.get k) (u : Quad) : A.merge p u = A.merge q u := by
  refine Quad.ext_get fun k hk => ?_
  rw [A.merge_get p u k hk, A.merge_get q u k hk]
  split
  · exact h k ‹_›
  · rfl

theorem NonzeroContext.not_seedRejected (hs : NonzeroContext s) (hA : s.algo = some A) : ¬SeedRejected A s.ctx.get := by
  rw [← zeroSeeded_iff, zeroSeeded, Bool.and_eq_true]
  rintro ⟨hx, hz⟩
  simp [hs A hA hx] at hz

end Sys2Proof.Machine

namespace Sys2Proof.Proofs
open Sys2Proof.Machine

/-- Settles O25: SEED is its target's check and the commit of the staged words. -/
theorem seedLoadsTheStagedWords : Obligations.SeedLoadsTheStagedWords := by
  unfold Obligations.SeedLoadsTheStagedWords
  intro s
  refine ⟨fun a h => exec_seed_of_unusable h, fun A hA h => ?_, fun A hA h => ?_⟩
  · rw [exec_seed hA, commit_of_rejected h]
  · rw [exec_seed hA]
    exact commit_accepts (fun _ _ => rfl) h

/-- Settles O29: SEEDDRAW is its checks and the commit of the drawn words. -/
theorem seeddrawDrawsInOrder : Obligations.SeeddrawDrawsInOrder := by
  unfold Obligations.SeeddrawDrawsInOrder
  intro s
  refine ⟨fun a h => exec_seeddraw_of_unusable h, fun a h hs => exec_seeddraw_of_none h hs,
    fun A B hA hB h => ?_, fun A B hA hB h => ?_⟩
  · rw [exec_seeddraw hA hB]
    exact commit_rejects (fun _ hk => get_drawWords_eq_drawnWord B s.ctx hk) h
  · rw [exec_seeddraw hA hB]
    exact commit_accepts (fun _ hk => get_drawWords_eq_drawnWord B s.ctx hk) h

/-- Settles O30: an XOR/shift-based target takes at least two draws, which are not both zero. -/
theorem chainedSeedingNeverFaults : Obligations.ChainedSeedingNeverFaults := by
  unfold Obligations.ChainedSeedingNeverFaults
  intro s A hs hA
  obtain ⟨q, -, hcommit⟩ := commit_accepts (s := s) (fun _ hk => get_drawWords_eq_drawnWord .splitmix64 s.ctx hk)
    (seedAccepted_drawn_splitmix64 A s.ctx)
  exact ⟨_, (exec_seeddraw hA hs).trans hcommit, rfl, rfl⟩

/-- Settles O31: the staged words are the saved live words, which are not rejected, and the saved words above them are zero. -/
theorem checkpointRestoresTheContext : Obligations.CheckpointRestoresTheContext := by
  unfold Obligations.CheckpointRestoresTheContext
  intro s r A hA htail hnonzero hbuilt hbuild hwords
  have husable : algoUsable r.build A.code := hbuild ▸ algoUsable_code (hbuilt A hA)
  have haccept : ¬SeedRejected A r.seed.get := mt (seedRejected_congr hwords).mp (hnonzero.not_seedRejected hA)
  have hctx : A.merge r.seed Quad.zero = s.ctx := (Algo.merge_congr hwords _).trans ((tailZero_of_some hA).mp htail).symm
  exact ⟨_, (exec_seed husable).trans (commit_of_not_rejected haccept), hA.symm, hctx, rfl⟩

/-- Settles O32: the comparison CMPST makes is that of the live words. -/
theorem cmpstComparesTheLiveWords : Obligations.CmpstComparesTheLiveWords := by
  unfold Obligations.CmpstComparesTheLiveWords
  intro s
  refine ⟨exec_cmpst_of_none, fun A hA => ?_⟩
  have hflag : eqFlag A s = decide (∀ k < A.width, s.ctx.get k = s.seed.get k) := by
    rw [Bool.eq_iff_iff, eqFlag, Algo.liveEq_iff, decide_eq_true_iff]
  rw [exec_cmpst_of_some hA, hflag]

/-- Settles O33: NOP is its completion, and NEXT checks the context first. -/
theorem nopAndUnseededNext : Obligations.NopAndUnseededNext := by
  unfold Obligations.NopAndUnseededNext
  exact fun s => ⟨rfl, exec_next_of_none⟩

/-- Settles O34: `softReset` sets every register to its value in the reset state. -/
theorem sresetIsTheResetOfEveryRegister : Obligations.SresetIsTheResetOfEveryRegister := by
  unfold Obligations.SresetIsTheResetOfEveryRegister
  exact fun s => rfl

end Sys2Proof.Proofs
end

section
/-! ### The SplitMix64 step on natural numbers modulo 2^64 (42 R180 to R182) -/

namespace Sys2Proof.Machine

theorem toNat_xor_ushiftRight (v : Word) (k : Nat) : (v ^^^ v >>> k).toNat = v.toNat ^^^ v.toNat / 2 ^ k := by
  rw [BitVec.toNat_xor, BitVec.toNat_ushiftRight, Nat.shiftRight_eq_div_pow]

theorem toNat_mixRound (k : Nat) (m v : Word) : (mixRound k m v).toNat = splitMixRound k m.toNat v.toNat := by
  rw [mixRound, BitVec.toNat_mul, toNat_xor_ushiftRight, splitMixRound]

theorem toNat_stepSplitMix64_state (x : Word) : (stepSplitMix64 x).2.toNat = splitMixState x.toNat :=
  BitVec.toNat_add x 0x9E3779B97F4A7C15#64

/-- The output is a function of the state after the addition (42 R181). -/
theorem toNat_stepSplitMix64_output (x : Word) :
    (stepSplitMix64 x).1.toNat = splitMixOutput (splitMixState x.toNat) := by
  rw [← toNat_stepSplitMix64_state]
  simp only [stepSplitMix64, splitMixOutput, toNat_xor_ushiftRight, toNat_mixRound, BitVec.toNat_ofNat, Nat.reducePow,
    Nat.reduceMod]

theorem stepSplitMix64_eq_ofNat (x : Word) :
    stepSplitMix64 x =
      (BitVec.ofNat 64 (splitMixOutput (splitMixState x.toNat)), BitVec.ofNat 64 (splitMixState x.toNat)) := by
  rw [← toNat_stepSplitMix64_output, ← toNat_stepSplitMix64_state, BitVec.ofNat_toNat, BitVec.ofNat_toNat,
    BitVec.setWidth_eq, BitVec.setWidth_eq]

end Sys2Proof.Machine

namespace Sys2Proof.Proofs
open Sys2Proof.Machine

/-- Settles O10: NEXT is one draw to OUT, and the SplitMix64 step is its form on numbers (`stepSplitMix64_eq_ofNat`). -/
theorem nextOnSplitMix64 : Obligations.NextOnSplitMix64 := by
  unfold Obligations.NextOnSplitMix64
  intro s hs
  rw [exec_next_of_some hs, drawTo, advance, genStep, stepSplitMix64_eq_ofNat]

end Sys2Proof.Proofs
end

section
/-! ### The Xoroshiro128 family (43 R190 to R197) -/

namespace Sys2Proof.Machine

/-! #### Rotation of a whole word (00 R9) -/

theorem rotl_eq_rotateLeft {w n : Nat} (x : BitVec w) (hn : n < w) : rotl w x n = x.rotateLeft n := by
  rw [rotl, BitVec.rotateLeft_def, Nat.mod_eq_of_lt hn]

theorem rotl_zero {w : Nat} (x : BitVec w) : rotl w x 0 = x := by
  rw [rotl, Nat.sub_zero, BitVec.ushiftRight_eq_zero le_rfl, BitVec.shiftLeft_zero, BitVec.or_zero]

theorem rotl_rotl {w n m : Nat} (x : BitVec w) (hn : n < w) (hm : m < w) :
    rotl w (rotl w x n) m = rotl w x ((n + m) % w) := by
  refine BitVec.eq_of_getLsbD_eq fun i hi => ?_
  have hsum : (n + m) % w < w := Nat.mod_lt _ (by omega)
  simp only [getLsbD_rotl_eq_leftSource _ hm, getLsbD_rotl_eq_leftSource _ hn, getLsbD_rotl_eq_leftSource _ hsum,
    leftSource_lt hi, leftSource_leftSource hn hm, decide_true, Bool.true_and]

theorem rotr_rotl {w n : Nat} (x : BitVec w) (hpos : 0 < n) (hn : n < w) : rotr w (rotl w x n) n = x := by
  rw [rotr_eq_rotl _ hn.le, rotl_rotl x hn (by omega), Nat.add_sub_cancel' hn.le, Nat.mod_self, rotl_zero]

theorem rotl_rotr {w n : Nat} (x : BitVec w) (hpos : 0 < n) (hn : n < w) : rotl w (rotr w x n) n = x := by
  rw [rotr_eq_rotl _ hn.le, rotl_rotl x (by omega) hn, Nat.sub_add_cancel hn.le, Nat.mod_self, rotl_zero]

/-! #### The core and its inverse (43 R190, R197) -/

theorem xor_cancel_left_right (x y : Word) : x ^^^ (y ^^^ x) = y := by
  rw [BitVec.xor_comm y, xor_cancel_left]

/-- Exclusive OR with two words, taken twice, is undone. -/
theorem xor_pair_cancel (r x y : Word) : r ^^^ x ^^^ y ^^^ x ^^^ y = r := by
  rw [BitVec.xor_assoc (r ^^^ x ^^^ y), BitVec.xor_assoc r, BitVec.xor_assoc r, BitVec.xor_self, BitVec.xor_zero]

/-- The second word gives back `s0 ^^^ s1`, which taken off the first leaves `s0` rotated. -/
theorem xoroInverse_xoroCore {a b c : Nat} (ha0 : 0 < a) (ha : a < 64) (hc0 : 0 < c) (hc : c < 64) (s0 s1 : Word) :
    xoroInverse a b c (xoroCore a b c s0 s1) = (s0, s1) := by
  simp only [xoroInverse, xoroCore, rotr_rotl _ hc0 hc, xor_pair_cancel, rotr_rotl _ ha0 ha]
  rw [BitVec.xor_comm _ s0, xor_cancel_left]

theorem xoroCore_xoroInverse {a b c : Nat} (ha0 : 0 < a) (ha : a < 64) (hc0 : 0 < c) (hc : c < 64) (n : Word × Word) :
    xoroCore a b c (xoroInverse a b c n).1 (xoroInverse a b c n).2 = n := by
  simp only [xoroInverse, xoroCore, xor_cancel_left_right, rotl_rotr _ ha0 ha, xor_pair_cancel, rotl_rotr _ hc0 hc]

/-! #### The core as the update of a tuple -/

theorem withPair_xoroCore {a c : Nat} (ha : a < 64) (hc : c < 64) (b : Nat) (q : Quad) (o : Word) :
    withPair q (o, xoroCore a b c q.w0 q.w1) = (o, xoroNext a b c q) := by
  rw [withPair, xoroCore, xoroNext, rotl_eq_rotateLeft _ ha, rotl_eq_rotateLeft _ hc]

theorem genStep_xoroshiro128p (q : Quad) : genStep .xoroshiro128p q = (q.w0 + q.w1, xoroNext 24 16 37 q) :=
  withPair_xoroCore (by decide) (by decide) 16 q _

theorem genStep_xoroshiro128pp (q : Quad) :
    genStep .xoroshiro128pp q = ((q.w0 + q.w1).rotateLeft 17 + q.w0, xoroNext 49 21 28 q) := by
  rw [← rotl_eq_rotateLeft _ (by decide)]
  exact withPair_xoroCore (by decide) (by decide) 21 q _

theorem genStep_xoroshiro128pdrbg (q : Quad) : genStep .xoroshiro128pdrbg q = (q.w0 + q.w1, xoroNext 55 14 36 q) :=
  withPair_xoroCore (by decide) (by decide) 14 q _

/-- NEXT, by its algorithm's step. -/
theorem exec_next_of_genStep {A : Algo} {s : State} {o : Word} {q : Quad} (hA : s.algo = some A) (h : genStep A s.ctx = (o, q)) :
    exec .next s = .next (complete { s with out := o, ctx := q }) := by
  rw [exec_next_of_some hA, drawTo, advance, h]

end Sys2Proof.Machine

namespace Sys2Proof.Proofs
open Sys2Proof.Machine

/-- Settles O13: the inverse takes back the core's two words one after the other, and exclusive OR passes through rotations and shifts. -/
theorem xoroCoreIsALinearBijection : Obligations.XoroCoreIsALinearBijection := by
  unfold Obligations.XoroCoreIsALinearBijection
  intro a b c ha0 ha _ _ hc0 hc
  refine ⟨xoroInverse_xoroCore ha0 ha hc0 hc, xoroCore_xoroInverse ha0 ha hc0 hc, xoroCore_xor a b c, fun s0 s1 hne hzero => ?_⟩
  obtain ⟨h0, h1⟩ := xoroCore_eq_zero ha hc hzero
  exact hne (Prod.ext h0 h1)

/-- Settles O11: NEXT is one step of the variant, whose pair is the core's. -/
theorem nextOnXoroshiro128 : Obligations.NextOnXoroshiro128 := by
  unfold Obligations.NextOnXoroshiro128
  intro s
  refine ⟨fun hs => ?_, fun hs => ?_, fun hs => ?_⟩
  · exact exec_next_of_genStep hs (genStep_xoroshiro128p s.ctx)
  · exact exec_next_of_genStep hs (genStep_xoroshiro128pp s.ctx)
  · exact exec_next_of_genStep hs (genStep_xoroshiro128pdrbg s.ctx)

end Sys2Proof.Proofs
end

section
/-! ### Xoshiro256++ (44 R210 to R214) -/

namespace Sys2Proof.Machine

/-! #### The step in closed form (44 R211, R212) -/

theorem advance_xoshiro256pp_eq_xoshiroNext (q : Quad) : advance .xoshiro256pp q = xoshiroNext q := by
  rw [advance_xoshiro256pp, rotl_eq_rotateLeft _ (by decide), xoshiroNext]

theorem genStep_xoshiro256pp (q : Quad) :
    genStep .xoshiro256pp q = ((q.w0 + q.w3).rotateLeft 23 + q.w0, xoshiroNext q) := by
  rw [← rotl_eq_rotateLeft _ (by decide), ← advance_xoshiro256pp_eq_xoshiroNext]
  rfl

/-! #### The series that undoes `x ^^^ x <<< 17` (44 R214) -/

/-- The exclusive OR of a word's left shifts by the multiples of 17 below 64. -/
def shiftSeries (v : Word) : Word := v ^^^ v <<< 17 ^^^ v <<< 34 ^^^ v <<< 51

/-- The terms cancel in pairs but for `x` and its shift by 68, which is zero. -/
theorem shiftSeries_xor_shiftLeft (x : Word) : shiftSeries (x ^^^ x <<< 17) = x := by
  have hout : x <<< 68 = 0 := BitVec.shiftLeft_eq_zero (by decide)
  simp only [shiftSeries, BitVec.shiftLeft_xor_distrib, ← BitVec.shiftLeft_add, Nat.reduceAdd, hout]
  grind

theorem shiftSeries_shiftLeft (v : Word) : shiftSeries v <<< 17 = v ^^^ shiftSeries v := by
  have hout : v <<< 68 = 0 := BitVec.shiftLeft_eq_zero (by decide)
  simp only [shiftSeries, BitVec.shiftLeft_xor_distrib, ← BitVec.shiftLeft_add, Nat.reduceAdd, hout]
  grind

/-! #### The update and its inverse (44 R212, R214) -/

/-- The inverse, its second word by the series of the exclusive OR of the two words before it. -/
theorem xoshiroInverse_eq (n : Quad) :
    xoshiroInverse n =
      let u := rotr 64 n.w3 45
      let s0 := n.w0 ^^^ u
      let s1 := shiftSeries (n.w1 ^^^ s0 ^^^ (n.w2 ^^^ s0))
      ⟨s0, s1, n.w1 ^^^ s0 ^^^ s1, u ^^^ s1⟩ := rfl

/-- The fourth word gives `s3 ^^^ s1` and with it `s0`; the middle two then give `s1 ^^^ s1 <<< 17`, which the series undoes. -/
theorem xoshiroInverse_advance (q : Quad) : xoshiroInverse (advance .xoshiro256pp q) = q := by
  have hw0 : q.w0 ^^^ q.w3 ^^^ q.w1 ^^^ (q.w3 ^^^ q.w1) = q.w0 := by
    rw [← BitVec.xor_assoc, xor_pair_cancel]
  have hmix : q.w1 ^^^ q.w2 ^^^ q.w0 ^^^ q.w0 ^^^ (q.w2 ^^^ q.w0 ^^^ q.w1 <<< 17 ^^^ q.w0) = q.w1 ^^^ q.w1 <<< 17 := by
    grind
  rw [advance_xoshiro256pp, xoshiroInverse_eq]
  simp only [rotr_rotl _ (show 0 < 45 by decide) (show 45 < 64 by decide), hw0, hmix, shiftSeries_xor_shiftLeft]
  congr 1 <;> grind

/-- Shifted by 17, the series leaves `b ^^^ c` beside itself, so the third word comes back (`shiftSeries_shiftLeft`). -/
theorem advance_xoshiroInverse (n : Quad) : advance .xoshiro256pp (xoshiroInverse n) = n := by
  have hw3 (s : Word) : rotl 64 (rotr 64 n.w3 45 ^^^ s ^^^ s) 45 = n.w3 := by
    rw [BitVec.xor_assoc, BitVec.xor_self, BitVec.xor_zero, rotl_rotr _ (by decide) (by decide)]
  rw [advance_xoshiro256pp, xoshiroInverse_eq]
  simp only [shiftSeries_shiftLeft, hw3]
  congr 1 <;> grind

end Sys2Proof.Machine

namespace Sys2Proof.Proofs
open Sys2Proof.Machine

/-- Settles O14: the inverse takes back the words one after the other, the update is additive, and only zero goes to zero. -/
theorem xoshiroUpdateIsALinearBijection : Obligations.XoshiroUpdateIsALinearBijection := by
  unfold Obligations.XoshiroUpdateIsALinearBijection
  exact ⟨xoshiroInverse_advance, advance_xoshiroInverse, advance_xor rfl, fun q => mt advance_xoshiro256pp_eq_zero⟩

/-- Settles O12: NEXT is one draw to OUT, and the step is its closed form (`genStep_xoshiro256pp`). -/
theorem nextOnXoshiro256 : Obligations.NextOnXoshiro256 := by
  unfold Obligations.NextOnXoshiro256
  exact fun s hs => exec_next_of_genStep hs (genStep_xoshiro256pp s.ctx)

end Sys2Proof.Proofs
end

section
/-! ### JUMP and LJUMP (45 R220 to R226) -/

namespace Sys2Proof.Machine

variable {A : Algo} {K : Algo → Option (List Word)} {ks : List Word} {s : State}

/-! #### Which algorithms have which jump (45 R220) -/

theorem exec_jump (s : State) : exec .jump s = jumpBy jumpConst s := rfl

theorem exec_ljump (s : State) : exec .ljump s = jumpBy ljumpConst s := rfl

theorem jumpBy_of_none (hA : s.algo = none) : jumpBy K s = .next (takeFault .notSeeded s) := by
  simp only [jumpBy, hA, raise]

theorem jumpConst_eq_none_iff : jumpConst A = none ↔ A = .splitmix64 := by
  cases A <;> decide

theorem ljumpConst_eq_none_iff : ljumpConst A = none ↔ A = .splitmix64 ∨ A = .xoroshiro128pdrbg := by
  cases A <;> decide

/-! #### The scan is the selected sum (45 R221) -/

theorem jumpWith_eq_selectedSum (A : Algo) (ks : List Word) (q : Quad) :
    jumpWith A ks q = A.merge (selectedSum A ks q) q := by
  rw [jumpWith, scanWords_fst, selectedSum]

/-- Where the algorithm has the jump, it completes with the sum its constant list selects. -/
theorem jumpBy_selects (hlen : ∀ {ks}, K A = some ks → ks.length = A.width) (hA : s.algo = some A) (hK : K A ≠ none) :
    ∃ ks, K A = some ks ∧ ks.length = A.width ∧
      jumpBy K s = .next (complete { s with ctx := A.merge (selectedSum A ks s.ctx) s.ctx }) := by
  obtain ⟨ks, hks⟩ := Option.ne_none_iff_exists'.mp hK
  refine ⟨ks, hks, hlen hks, ?_⟩
  rw [jumpBy_of_some hA hks, jumpWith_eq_selectedSum]

/-! #### A jump is a number of steps on the whole tuple (45 R222)

The earlier equations speak of the live words. Neither a jump nor a step touches the words above them, so they hold of the tuple. -/

theorem merge_live (A : Algo) (w u : Quad) : A.merge (live A w) u = A.merge w u := by
  cases A <;> rfl

/-- The words of `p` above N(A) are those of `q`. -/
def SameTail (A : Algo) (p q : Quad) : Prop := A.merge p q = p

theorem sameTail_jumpWith (A : Algo) (ks : List Word) (q : Quad) : SameTail A (jumpWith A ks q) q := by
  cases A <;> rfl

theorem SameTail.advance {p q : Quad} (h : SameTail A p q) : SameTail A (advance A p) q := by
  rw [SameTail] at *
  rw [← h]
  cases A <;> rfl

theorem sameTail_iterate (A : Algo) (m : Nat) (q : Quad) : SameTail A ((advance A)^[m] q) q := by
  induction m with
  | zero => cases A <;> rfl
  | succ m ih =>
    rw [Function.iterate_succ_apply']
    exact ih.advance

theorem SameTail.ext {p r q : Quad} (hp : SameTail A p q) (hr : SameTail A r q) (h : live A p = live A r) : p = r := by
  rw [SameTail] at hp hr
  rw [← hp, ← hr, ← merge_live, h, merge_live]

theorem live_iterate (A : Algo) (m : Nat) (q : Quad) : live A ((advance A)^[m] q) = (advance A)^[m] (live A q) :=
  Function.Semiconj.iterate_right (live_advance A) m q

theorem jumpWith_eq_iterate {m : Nat}
    (h : ∀ q, TailZero A q → evalPoly A (64 * ks.length) (constNat ks) q = (advance A)^[m] q) :
    jumpWith A ks = (advance A)^[m] := by
  funext q
  refine (sameTail_jumpWith A ks q).ext (sameTail_iterate A m q) ?_
  rw [live_jumpWith, h _ (tailZero_live A q), live_iterate]

theorem jumpWith_jumpConst (hK : jumpConst A = some ks) : jumpWith A ks = (advance A)^[2 ^ (32 * A.width)] :=
  jumpWith_eq_iterate fun q hq => jumpConst_length hK ▸ evalPoly_jumpConst hK q hq

theorem jumpWith_ljumpConst (hK : ljumpConst A = some ks) : jumpWith A ks = (advance A)^[2 ^ (48 * A.width)] :=
  jumpWith_eq_iterate fun q hq => ljumpConst_length hK ▸ evalPoly_ljumpConst hK q hq

theorem exec_jump_eq_steps {n : Nat} (hA : s.algo = some A) (hK : jumpConst A = some ks) (hn : 32 * A.width = n) :
    exec .jump s = .next (complete { s with ctx := (advance A)^[2 ^ n] s.ctx }) := by
  rw [exec_jump, jumpBy_of_some hA hK, jumpWith_jumpConst hK, hn]

theorem exec_ljump_eq_steps {n : Nat} (hA : s.algo = some A) (hK : ljumpConst A = some ks) (hn : 48 * A.width = n) :
    exec .ljump s = .next (complete { s with ctx := (advance A)^[2 ^ n] s.ctx }) := by
  rw [exec_ljump, jumpBy_of_some hA hK, jumpWith_ljumpConst hK, hn]

/-! #### What a jump has from being a number of steps (45 R226) -/

theorem exists_jumpWith_eq_iterate (hK : jumpConst A = some ks ∨ ljumpConst A = some ks) :
    ∃ m, jumpWith A ks = (advance A)^[m] := by
  obtain hK | hK := hK
  · exact ⟨_, jumpWith_jumpConst hK⟩
  · exact ⟨_, jumpWith_ljumpConst hK⟩

theorem xorShift_of_hasJump (hK : jumpConst A = some ks ∨ ljumpConst A = some ks) : A.xorShift = true := by
  obtain hK | hK := hK
  · exact xorShift_of_jumpConst hK
  · obtain ⟨_, hJ⟩ := jumpConst_of_ljumpConst hK
    exact xorShift_of_jumpConst hJ

theorem jumpWith_xor (hK : jumpConst A = some ks ∨ ljumpConst A = some ks) (p q : Quad) :
    jumpWith A ks (p.xor q) = (jumpWith A ks p).xor (jumpWith A ks q) := by
  obtain ⟨m, hm⟩ := exists_jumpWith_eq_iterate hK
  rw [hm, iterate_advance_xor (xorShift_of_hasJump hK)]

theorem jumpWith_advance (hK : jumpConst A = some ks ∨ ljumpConst A = some ks) (q : Quad) :
    jumpWith A ks (advance A q) = advance A (jumpWith A ks q) := by
  obtain ⟨m, hm⟩ := exists_jumpWith_eq_iterate hK
  rw [hm, ← Function.iterate_succ_apply, Function.iterate_succ_apply']

/-- A jump whose list commutes with the step, and NEXT, leave the same tuple in either order. -/
theorem jumpBy_next_comm (hA : s.algo = some A) (hK : K A = some ks)
    (hcomm : jumpWith A ks (advance A s.ctx) = advance A (jumpWith A ks s.ctx)) :
    ∃ t t' u u', jumpBy K s = .next t ∧ exec .next t = .next t' ∧ exec .next s = .next u ∧ jumpBy K u = .next u' ∧
      t'.ctx = u'.ctx :=
  ⟨_, _, _, _, jumpBy_of_some hA hK, exec_next_of_some hA, exec_next_of_some hA, jumpBy_of_some hA hK, hcomm.symm⟩

end Sys2Proof.Machine

namespace Sys2Proof.Proofs
open Sys2Proof.Machine

/-- Settles O16: ALGO decides between the two faults and the jump, whose scan is the selected sum (`jumpBy_selects`). -/
theorem jumpAccumulatesSelectedTuples : Obligations.JumpAccumulatesSelectedTuples := by
  unfold Obligations.JumpAccumulatesSelectedTuples
  intro s
  rw [exec_jump]
  refine ⟨jumpBy_of_none, fun hA => jumpBy_unsupported hA rfl, fun A hA hne => ?_⟩
  exact jumpBy_selects jumpConst_length hA (mt jumpConst_eq_none_iff.mp hne)

/-- Settles O17, as O16 with the lists of LJUMP, which the DRBG variant lacks too. -/
theorem longJumpAccumulatesSelectedTuples : Obligations.LongJumpAccumulatesSelectedTuples := by
  unfold Obligations.LongJumpAccumulatesSelectedTuples
  intro s
  rw [exec_ljump]
  refine ⟨jumpBy_of_none, ?_, fun A hA hsplit hdrbg => ?_⟩
  · rintro (hA | hA)
    · exact jumpBy_unsupported hA rfl
    · exact jumpBy_unsupported hA rfl
  · exact jumpBy_selects ljumpConst_length hA (mt ljumpConst_eq_none_iff.mp (not_or.mpr ⟨hsplit, hdrbg⟩))

/-- Settles O18: a jump is `2 ^ (32 * 2)` steps and a long jump `2 ^ (48 * 2)` on the two-word tuples. -/
theorem xoroshiroJumpsEqualTheirSteps : Obligations.XoroshiroJumpsEqualTheirSteps := by
  unfold Obligations.XoroshiroJumpsEqualTheirSteps
  intro s
  constructor
  · rintro A (rfl | rfl | rfl) hA
    · exact exec_jump_eq_steps hA rfl rfl
    · exact exec_jump_eq_steps hA rfl rfl
    · exact exec_jump_eq_steps hA rfl rfl
  · rintro A (rfl | rfl) hA
    · exact exec_ljump_eq_steps hA rfl rfl
    · exact exec_ljump_eq_steps hA rfl rfl

/-- Settles O19: a jump is `2 ^ (32 * 4)` steps and a long jump `2 ^ (48 * 4)` on the four-word tuples. -/
theorem xoshiroJumpsEqualTheirSteps : Obligations.XoshiroJumpsEqualTheirSteps := by
  unfold Obligations.XoshiroJumpsEqualTheirSteps
  exact fun s hA => ⟨exec_jump_eq_steps hA rfl rfl, exec_ljump_eq_steps hA rfl rfl⟩

/-- Settles O20: a jump is a number of steps, so it is additive and commutes with one more step. -/
theorem jumpsCommuteWithNext : Obligations.JumpsCommuteWithNext := by
  unfold Obligations.JumpsCommuteWithNext
  refine ⟨fun A ks p q hK => jumpWith_xor hK p q, ?_⟩
  rintro s A i hA (⟨rfl, hK⟩ | ⟨rfl, hK⟩)
  · obtain ⟨ks, hks⟩ := Option.ne_none_iff_exists'.mp hK
    exact jumpBy_next_comm hA hks (jumpWith_advance (.inl hks) s.ctx)
  · obtain ⟨ks, hks⟩ := Option.ne_none_iff_exists'.mp hK
    exact jumpBy_next_comm hA hks (jumpWith_advance (.inr hks) s.ctx)

end Sys2Proof.Proofs
end

section
/-! ### The unit-interval conversions (46 R240 to R245) -/

namespace Sys2Proof.Machine

/-! #### One encoder for both formats: `v / 2 ^ (m + 1)` with a fraction of `m` bits (46 R240, R241) -/

/-- The bits of `v`, moved up until its leading bit is bit `m`, below that bit. -/
def unitFraction (m v : Nat) : Nat := (v <<< (m - v.log2)) % 2 ^ m

/-- A positive `v` with its leading bit's position, counted from `bias`, as biased exponent; zero as +0.0. -/
def unitBits (W m bias v : Nat) : BitVec W :=
  if v = 0 then 0 else BitVec.ofNat W (bias + v.log2) <<< m ||| BitVec.ofNat W (unitFraction m v)

theorem unitDoubleBits_eq_unitBits (w : Word) : unitDoubleBits w = unitBits 64 52 970 (w.toNat / 2 ^ 11) := by
  rw [← Nat.shiftRight_eq_div_pow, ← BitVec.toNat_ushiftRight]
  rfl

theorem unitFloatBits_eq_unitBits (w : Word) : unitFloatBits w = unitBits 32 23 103 (w.toNat / 2 ^ 40) := by
  rw [← Nat.shiftRight_eq_div_pow, ← BitVec.toNat_ushiftRight]
  rfl

theorem unitBits_zero (W m bias : Nat) : unitBits W m bias 0 = 0 := rfl

theorem unitFraction_lt (m v : Nat) : unitFraction m v < 2 ^ m := Nat.mod_lt _ (Nat.two_pow_pos m)

/-- Two fields side by side are the digits of one number, at every width. -/
theorem toNat_shiftLeft_or_ofNat {W m e f : Nat} (he : e * 2 ^ m < 2 ^ W) (hf : f < 2 ^ m) (hm : m ≤ W) :
    (BitVec.ofNat W e <<< m ||| BitVec.ofNat W f).toNat = e * 2 ^ m + f := by
  have he' : e < 2 ^ W := (Nat.le_mul_of_pos_right e (Nat.two_pow_pos m)).trans_lt he
  have hf' : f < 2 ^ W := hf.trans_le (Nat.pow_le_pow_right (by omega) hm)
  rw [BitVec.toNat_or, BitVec.toNat_shiftLeft, BitVec.toNat_ofNat, BitVec.toNat_ofNat, Nat.mod_eq_of_lt he', Nat.mod_eq_of_lt hf',
    Nat.shiftLeft_eq, Nat.mod_eq_of_lt he, ← Nat.shiftLeft_eq, Nat.shiftLeft_add_eq_or_of_lt hf]

section
variable {W m k bias v : Nat} (hlt : v < 2 ^ (m + 1))
include hlt

theorem log2_le_of_numerator (hv : v ≠ 0) : v.log2 ≤ m := Nat.lt_succ_iff.mp ((Nat.log2_lt hv).mpr hlt)

/-- The hidden bit and the fraction are all of `v`: no bit is rounded off. -/
theorem hiddenBit_add_unitFraction (hv : v ≠ 0) : 2 ^ m + unitFraction m v = v * 2 ^ (m - v.log2) := by
  have hsplit : v.log2 + (m - v.log2) = m := Nat.add_sub_cancel' (log2_le_of_numerator hlt hv)
  have hlow : 2 ^ m ≤ v * 2 ^ (m - v.log2) := by
    calc 2 ^ m = 2 ^ v.log2 * 2 ^ (m - v.log2) := by rw [← pow_add, hsplit]
      _ ≤ v * 2 ^ (m - v.log2) := Nat.mul_le_mul_right _ (Nat.log2_self_le hv)
  have hhigh : v * 2 ^ (m - v.log2) < 2 ^ m * 2 := by
    calc v * 2 ^ (m - v.log2) < 2 ^ (v.log2 + 1) * 2 ^ (m - v.log2) :=
          Nat.mul_lt_mul_of_pos_right Nat.lt_log2_self (Nat.two_pow_pos _)
      _ = 2 ^ m * 2 := by rw [← pow_add, ← pow_succ, Nat.add_right_comm, hsplit]
  rw [unitFraction, Nat.shiftLeft_eq, Nat.mod_eq_sub_mod hlow, Nat.mod_eq_of_lt (by omega), Nat.add_sub_cancel' hlow]

/-- Exponent `bias + m` is that of the largest numerators, whose value lies just below 1. -/
theorem exponent_mul_lt (hbias : bias + m < 2 ^ k) (hv : v ≠ 0) : (bias + v.log2) * 2 ^ m < 2 ^ (m + k) := by
  have hlog := log2_le_of_numerator hlt hv
  rw [pow_add, Nat.mul_comm]
  exact Nat.mul_lt_mul_of_pos_left (by omega) (Nat.two_pow_pos m)

variable (hbias : bias + m < 2 ^ k) (hW : m + k < W)
include hbias hW

theorem toNat_unitBits (hv : v ≠ 0) : (unitBits W m bias v).toNat = (bias + v.log2) * 2 ^ m + unitFraction m v := by
  have he := exponent_mul_lt hlt hbias hv
  rw [unitBits, if_neg hv]
  exact toNat_shiftLeft_or_ofNat (he.trans (Nat.pow_lt_pow_right (by omega) hW)) (unitFraction_lt m v) (by omega)

/-- Every pattern lies below that of 1.0, whose exponent is `bias + m + 1` and whose fraction is 0. -/
theorem toNat_unitBits_lt : (unitBits W m bias v).toNat < (bias + m + 1) * 2 ^ m := by
  obtain rfl | hv := eq_or_ne v 0
  · rw [unitBits_zero, BitVec.ofNat_eq_ofNat, BitVec.toNat_zero]
    positivity
  · have hlog := log2_le_of_numerator hlt hv
    calc (unitBits W m bias v).toNat = (bias + v.log2) * 2 ^ m + unitFraction m v := toNat_unitBits hlt hbias hW hv
      _ < (bias + v.log2) * 2 ^ m + 2 ^ m := Nat.add_lt_add_left (unitFraction_lt m v) _
      _ = (bias + v.log2 + 1) * 2 ^ m := (Nat.succ_mul _ _).symm
      _ ≤ (bias + m + 1) * 2 ^ m := Nat.mul_le_mul_right _ (by omega)

theorem unitBits_sign : (unitBits W m bias v).getLsbD (m + k) = false := by
  refine Nat.testBit_lt_two_pow ((toNat_unitBits_lt hlt hbias hW).trans_le ?_)
  rw [pow_add, Nat.mul_comm]
  exact Nat.mul_le_mul_left _ hbias

theorem unitBits_fraction (hv : v ≠ 0) : ((unitBits W m bias v).extractLsb' 0 m).toNat = unitFraction m v := by
  rw [BitVec.extractLsb'_toNat, Nat.shiftRight_zero, toNat_unitBits hlt hbias hW hv, Nat.mul_add_mod_self_right,
    Nat.mod_eq_of_lt (unitFraction_lt m v)]

theorem unitBits_exponent (hv : v ≠ 0) : ((unitBits W m bias v).extractLsb' m k).toNat = bias + v.log2 := by
  have hlog := log2_le_of_numerator hlt hv
  rw [BitVec.extractLsb'_toNat, Nat.shiftRight_eq_div_pow, toNat_unitBits hlt hbias hW hv, Nat.mul_comm,
    Nat.mul_add_div (Nat.two_pow_pos m), Nat.div_eq_of_lt (unitFraction_lt m v), Nat.add_zero, Nat.mod_eq_of_lt (by omega)]

/-- A positive numerator's pattern is a normal number, and its value is the numerator's, `v / 2 ^ (m + 1)`. -/
theorem unitBits_isExact (hv : v ≠ 0) {top : Nat} (htop : bias + m = top) :
    (unitBits W m bias v).getLsbD (m + k) = false ∧
      bias ≤ ((unitBits W m bias v).extractLsb' m k).toNat ∧ ((unitBits W m bias v).extractLsb' m k).toNat ≤ top ∧
      (2 ^ m + ((unitBits W m bias v).extractLsb' 0 m).toNat) * 2 ^ ((unitBits W m bias v).extractLsb' m k).toNat =
        v * 2 ^ top := by
  have hlog := log2_le_of_numerator hlt hv
  rw [unitBits_exponent hlt hbias hW hv, unitBits_fraction hlt hbias hW hv, hiddenBit_add_unitFraction hlt hv]
  refine ⟨unitBits_sign hlt hbias hW, by omega, by omega, ?_⟩
  rw [Nat.mul_assoc, ← pow_add]
  congr 2
  omega

end

theorem doubleNumerator_lt (w : Word) : w.toNat / 2 ^ 11 < 2 ^ (52 + 1) := by
  have := w.isLt
  omega

theorem floatNumerator_lt (w : Word) : w.toNat / 2 ^ 40 < 2 ^ (23 + 1) := by
  have := w.isLt
  omega

/-- The bound is the pattern of 1.0 (46 R245). -/
theorem toNat_unitDoubleBits_lt (w : Word) : (unitDoubleBits w).toNat < 0x3FF0000000000000 := by
  rw [unitDoubleBits_eq_unitBits]
  exact toNat_unitBits_lt (k := 11) (doubleNumerator_lt w) (by decide) (by decide)

/-- The bound is the pattern of 1.0 (46 R245). -/
theorem toNat_unitFloatBits_lt (w : Word) : (unitFloatBits w).toNat < 0x3F800000 := by
  rw [unitFloatBits_eq_unitBits]
  exact toNat_unitBits_lt (k := 8) (floatNumerator_lt w) (by decide) (by decide)

/-! #### The two commands (46 R242, R243) -/

/-- A draw converted by `f`, in a build that has the converter. -/
def unitDraw (f : Word → Word) (s : State) : Outcome :=
  if s.build.hasUnit then
    match s.algo with
    | none => raise .notSeeded s
    | some A => done (drawTo f A s)
  else raise .featureAbsent s

theorem exec_udbl (s : State) : exec .udbl s = unitDraw unitDoubleBits s := rfl

theorem exec_uflt (s : State) : exec .uflt s = unitDraw (fun o => (unitFloatBits o).setWidth 64) s := rfl

variable {A : Algo} {s : State} (f : Word → Word)

theorem unitDraw_of_absent (hU : s.build.hasUnit = false) : unitDraw f s = .next (takeFault .featureAbsent s) := by
  simp only [unitDraw, hU, raise, Bool.false_eq_true, if_false]

theorem unitDraw_of_none (hU : s.build.hasUnit = true) (hA : s.algo = none) :
    unitDraw f s = .next (takeFault .notSeeded s) := by
  simp only [unitDraw, hU, hA, raise, if_true]

theorem unitDraw_of_some (hU : s.build.hasUnit = true) (hA : s.algo = some A) :
    unitDraw f s = .next (complete (drawTo f A s)) := by
  simp only [unitDraw, hU, hA, done, if_true]

end Sys2Proof.Machine

namespace Sys2Proof.Proofs
open Sys2Proof.Machine

/-- Settles O21: the double is the encoder's pattern with a fraction of 52 bits, whose value is exact (`unitBits_isExact`). -/
theorem unitDoubleIsExact : Obligations.UnitDoubleIsExact := by
  unfold Obligations.UnitDoubleIsExact
  intro w
  rw [unitDoubleBits_eq_unitBits]
  refine ⟨fun hzero => by rw [hzero, unitBits_zero], fun hv => ?_⟩
  exact unitBits_isExact (k := 11) (doubleNumerator_lt w) (by decide) (by decide) hv rfl

/-- Settles O22, as O21 with a fraction of 23 bits. -/
theorem unitFloatIsExact : Obligations.UnitFloatIsExact := by
  unfold Obligations.UnitFloatIsExact
  intro w
  rw [unitFloatBits_eq_unitBits]
  refine ⟨fun hzero => by rw [hzero, unitBits_zero], fun hv => ?_⟩
  exact unitBits_isExact (k := 8) (floatNumerator_lt w) (by decide) (by decide) hv rfl

/-- Settles O23: both patterns lie below that of 1.0, and the commands leave them in OUT. -/
theorem unitOutputsLieBelowOne : Obligations.UnitOutputsLieBelowOne := by
  unfold Obligations.UnitOutputsLieBelowOne
  refine ⟨fun w => ?_, fun s hU hne => ?_⟩
  · have hd := toNat_unitDoubleBits_lt w
    have hf := toNat_unitFloatBits_lt w
    exact ⟨by omega, Nat.testBit_lt_two_pow (by omega), by omega, Nat.testBit_lt_two_pow (by omega)⟩
  · obtain ⟨A, hA⟩ := Option.ne_none_iff_exists'.mp hne
    rw [exec_udbl, exec_uflt]
    refine ⟨_, _, unitDraw_of_some _ hU hA, unitDraw_of_some _ hU hA, toNat_unitDoubleBits_lt _, ?_⟩
    rw [complete_out, drawTo_out, BitVec.toNat_setWidth_of_le (by decide)]
    exact toNat_unitFloatBits_lt _

/-- Settles O24: the build and then ALGO decide between the two faults and NEXT's draw, converted. -/
theorem unitCommandsDrawOnce : Obligations.UnitCommandsDrawOnce := by
  unfold Obligations.UnitCommandsDrawOnce
  intro s
  rw [exec_udbl, exec_uflt]
  refine ⟨fun hU hne => ?_, fun hU hA => ⟨unitDraw_of_none _ hU hA, unitDraw_of_none _ hU hA⟩,
    fun hU => ⟨unitDraw_of_absent _ hU, unitDraw_of_absent _ hU⟩⟩
  obtain ⟨A, hA⟩ := Option.ne_none_iff_exists'.mp hne
  exact ⟨_, exec_next_of_some hA, unitDraw_of_some _ hU hA, unitDraw_of_some _ hU hA⟩

end Sys2Proof.Proofs
end

section
/-! ### The checks of 60 R260 before a command's body -/

namespace Sys2Proof.Machine

variable {i : Instr} {s : State} {a w n : Nat} {A : Algo}

/-! #### The checks of each command -/

theorem headFault_nop : headFault .nop s = none := by
  simp [headFault, Instr.mnemonic, algoField, rotateFields]

theorem headFault_sreset : headFault .sreset s = none := by
  simp [headFault, Instr.mnemonic, algoField, rotateFields]

theorem headFault_seed : headFault (.seed a) s = if ¬algoUsable s.build a then some .illegalAlgo else none := by
  simp [headFault, Instr.mnemonic, algoField, rotateFields]

theorem headFault_seedent : headFault (.seedent a) s =
    if s.build.hasEntropy = false then some .featureAbsent
    else if ¬algoUsable s.build a then some .illegalAlgo else none := by
  simp [headFault, Instr.mnemonic, algoField, rotateFields]

theorem headFault_seeddraw : headFault (.seeddraw a) s =
    if ¬algoUsable s.build a then some .illegalAlgo else if s.algo = none then some .notSeeded else none := by
  simp [headFault, Instr.mnemonic, algoField, rotateFields]

theorem headFault_next : headFault .next s = if s.algo = none then some .notSeeded else none := by
  simp [headFault, Instr.mnemonic, algoField, rotateFields]

theorem headFault_cmpst : headFault .cmpst s = if s.algo = none then some .notSeeded else none := by
  simp [headFault, Instr.mnemonic, algoField, rotateFields]

theorem headFault_udbl : headFault .udbl s =
    if s.build.hasUnit = false then some .featureAbsent else if s.algo = none then some .notSeeded else none := by
  simp [headFault, Instr.mnemonic, algoField, rotateFields]

theorem headFault_uflt : headFault .uflt s =
    if s.build.hasUnit = false then some .featureAbsent else if s.algo = none then some .notSeeded else none := by
  simp [headFault, Instr.mnemonic, algoField, rotateFields]

theorem headFault_jump : headFault .jump s =
    if s.algo = none then some .notSeeded else if ∃ A ∈ s.algo, jumpConst A = none then some .unsupportedOp else none := by
  simp [headFault, Instr.mnemonic, algoField, rotateFields, jumpConst_eq_none_iff]

theorem headFault_ljump : headFault .ljump s =
    if s.algo = none then some .notSeeded else if ∃ A ∈ s.algo, ljumpConst A = none then some .unsupportedOp else none := by
  simp [headFault, Instr.mnemonic, algoField, rotateFields, ljumpConst_eq_none_iff, and_or_left, exists_or]

theorem headFault_of_rotateFields (h : rotateFields i = some (w, n)) :
    headFault i s = if n = 0 ∨ w ≤ n then some .rotRange else none := by
  cases i <;> cases h <;> simp [headFault, Instr.mnemonic, algoField, rotateFields]

/-! #### A command stops at the first check that applies, or its body runs -/

/-- What a command does: the fault of its checks, or else a body that takes no fault, or the fault of a seeding command's body. -/
inductive ChecksThenBody (i : Instr) (s : State) : Prop
  | stopped (k : Cause) (hh : headFault i s = some k) (he : exec i s = .next (takeFault k s))
  | ran (t : State) (hh : headFault i s = none) (he : exec i s = .next t) (ht : t.fault = true → s.fault = true)
  | faulted (t : State) (hh : headFault i s = none) (he : exec i s = .next t) (hf : algoField i ≠ none)
      (hk : t.cause = .zeroSeed ∨ (i.mnemonic = "SEEDENT" ∧ t.cause = .entropyFail))

theorem checksThenBody_of_commit {buf : Quad} {e : List EntSample} (hh : headFault i s = none)
    (hf : algoField i ≠ none) (he : exec i s = commit A buf { s with entropy := e }) : ChecksThenBody i s := by
  obtain ⟨-, hc⟩ | ⟨-, hc⟩ := commit_cases A buf { s with entropy := e }
  · exact .faulted _ hh (he.trans hc) hf (.inl rfl)
  · exact .ran _ hh (he.trans hc) id

theorem checksThenBody_of_jumpBy {K : Algo → Option (List Word)}
    (hh : headFault i s = if s.algo = none then some .notSeeded
      else if ∃ A ∈ s.algo, K A = none then some .unsupportedOp else none)
    (he : exec i s = jumpBy K s) : ChecksThenBody i s := by
  cases hA : s.algo with
  | none => exact .stopped .notSeeded (by simp [hh, hA]) (he.trans (jumpBy_of_none hA))
  | some A =>
    cases hK : K A with
    | none => exact .stopped .unsupportedOp (by simp [hh, hA, hK]) (he.trans (jumpBy_unsupported hA hK))
    | some ks => exact .ran _ (by simp [hh, hA, hK]) (he.trans (jumpBy_of_some hA hK)) id

theorem checksThenBody_of_unitDraw {f : Word → Word}
    (hh : headFault i s =
      if s.build.hasUnit = false then some .featureAbsent else if s.algo = none then some .notSeeded else none)
    (he : exec i s = unitDraw f s) : ChecksThenBody i s := by
  cases hU : s.build.hasUnit with
  | false => exact .stopped .featureAbsent (by simp [hh, hU]) (he.trans (unitDraw_of_absent f hU))
  | true =>
    cases hA : s.algo with
    | none => exact .stopped .notSeeded (by simp [hh, hU, hA]) (he.trans (unitDraw_of_none f hU hA))
    | some A => exact .ran _ (by simp [hh, hU, hA]) (he.trans (unitDraw_of_some f hU hA)) id

theorem checksThenBody_of_shiftChecked {u : State} (hi : rotateFields i = some (w, n))
    (he : exec i s = shiftChecked w n s u) (hu : u.fault = s.fault) : ChecksThenBody i s := by
  have hh := headFault_of_rotateFields (s := s) hi
  by_cases h : n = 0 ∨ w ≤ n
  · exact .stopped .rotRange (by rw [hh, if_pos h]) (he.trans (shiftChecked_of_outOfRange h s u))
  · exact .ran _ (by rw [hh, if_neg h]) (he.trans (shiftChecked_of_inRange (by omega) s u)) hu.le

/-! #### The seeding commands -/

theorem exists_code_of_algoUsable {b : Build} (h : algoUsable b a) : ∃ A : Algo, A.code = a :=
  (target_usable h).imp fun _ hA => (target_some hA).1

theorem exec_seedent_of_absent (h : s.build.hasEntropy = false) :
    exec (.seedent a) s = .next (takeFault .featureAbsent s) := by
  change execSeedent a s = _
  simp only [execSeedent, h, raise, Bool.false_eq_true, if_false]

theorem exec_seedent_of_unusable (hE : s.build.hasEntropy = true) (h : ¬algoUsable s.build a) :
    exec (.seedent a) s = .next (takeFault .illegalAlgo s) := by
  change execSeedent a s = _
  simp only [execSeedent, hE, target_unusable h, raise, if_true]

theorem checksThenBody_seedent (a : Nat) (s : State) : ChecksThenBody (.seedent a) s := by
  cases hE : s.build.hasEntropy with
  | false => exact .stopped _ (by rw [headFault_seedent, if_pos hE]) (exec_seedent_of_absent hE)
  | true =>
    by_cases ha : algoUsable s.build a
    · obtain ⟨A, rfl⟩ := exists_code_of_algoUsable ha
      have hh : headFault (.seedent A.code) s = none := by
        rw [headFault_seedent, if_neg (by simp [hE]), if_neg (not_not.mpr ha)]
      have he := exec_seedent_eq_seedentEnd (s := s) hE ha
      generalize gather (8 * A.width) s.entropy (waitCount s) (waitBuffer s) = g at he
      cases g with
      | full buf rest => exact checksThenBody_of_commit hh nofun he
      | failed rest => exact .faulted _ hh he nofun (.inr ⟨rfl, rfl⟩)
      | waiting cnt buf rest => exact .ran _ hh he id
    · exact .stopped _ (by rw [headFault_seedent, if_neg (by simp [hE]), if_pos ha]) (exec_seedent_of_unusable hE ha)

theorem checksThenBody_seeddraw (a : Nat) (s : State) : ChecksThenBody (.seeddraw a) s := by
  by_cases ha : algoUsable s.build a
  · obtain ⟨A, rfl⟩ := exists_code_of_algoUsable ha
    cases hB : s.algo with
    | none =>
      exact .stopped _ (by rw [headFault_seeddraw, if_neg (not_not.mpr ha), if_pos hB]) (exec_seeddraw_of_none ha hB)
    | some B =>
      exact checksThenBody_of_commit (by rw [headFault_seeddraw, if_neg (not_not.mpr ha), if_neg (by simp [hB])]) nofun
        (exec_seeddraw ha hB)
  · exact .stopped _ (by rw [headFault_seeddraw, if_pos ha]) (exec_seeddraw_of_unusable ha)

/-! #### Every command -/

theorem exec_checksThenBody (i : Instr) (s : State) : ChecksThenBody i s := by
  cases i with
  | nop => exact .ran _ headFault_nop rfl id
  | seed a =>
    by_cases ha : algoUsable s.build a
    · obtain ⟨A, rfl⟩ := exists_code_of_algoUsable ha
      exact checksThenBody_of_commit (by rw [headFault_seed, if_neg (not_not.mpr ha)]) nofun (exec_seed ha)
    · exact .stopped _ (by rw [headFault_seed, if_pos ha]) (exec_seed_of_unusable ha)
  | seedent a => exact checksThenBody_seedent a s
  | seeddraw a => exact checksThenBody_seeddraw a s
  | next =>
    cases hA : s.algo with
    | none => exact .stopped _ (by rw [headFault_next, if_pos hA]) (exec_next_of_none hA)
    | some A => exact .ran _ (by simp [headFault_next, hA]) (exec_next_of_some hA) id
  | jump => exact checksThenBody_of_jumpBy headFault_jump (exec_jump s)
  | ljump => exact checksThenBody_of_jumpBy headFault_ljump (exec_ljump s)
  | udbl => exact checksThenBody_of_unitDraw headFault_udbl (exec_udbl s)
  | uflt => exact checksThenBody_of_unitDraw headFault_uflt (exec_uflt s)
  | cmpst =>
    cases hA : s.algo with
    | none => exact .stopped _ (by rw [headFault_cmpst, if_pos hA]) (exec_cmpst_of_none hA)
    | some A => exact .ran _ (by simp [headFault_cmpst, hA]) (exec_cmpst_of_some hA) id
  | rotl w n => exact checksThenBody_of_shiftChecked rfl (exec_rotl w n s) rfl
  | rotr w n => exact checksThenBody_of_shiftChecked rfl (exec_rotr w n s) rfl
  | rotli w n => exact checksThenBody_of_shiftChecked rfl (exec_rotli w n s) rfl
  | rotri w n => exact checksThenBody_of_shiftChecked rfl (exec_rotri w n s) rfl
  | sreset => exact .ran _ headFault_sreset rfl nofun

/-- The fault a command reports is that of its checks, whatever else might apply (60 R260). -/
theorem exec_of_headFault {k : Cause} (h : headFault i s = some k) : exec i s = .next (takeFault k s) := by
  cases exec_checksThenBody i s with
  | stopped k' hh he =>
    cases hh.symm.trans h
    exact he
  | ran t hh _ _ => cases hh.symm.trans h
  | faulted t hh _ _ _ => cases hh.symm.trans h

/-- Past the checks only a seeding command faults: on a rejected seed, or SEEDENT on the entropy source (60 R258, R259). -/
theorem seedingCause_of_bodyFault {t : State} (h : headFault i s = none) (he : exec i s = .next t) (hs : s.fault = false)
    (ht : t.fault = true) :
    algoField i ≠ none ∧ (t.cause = .zeroSeed ∨ (i.mnemonic = "SEEDENT" ∧ t.cause = .entropyFail)) := by
  cases exec_checksThenBody i s with
  | stopped k hh _ => cases hh.symm.trans h
  | ran u _ hu hfault =>
    cases hu.symm.trans he
    simp [hfault ht] at hs
  | faulted u _ hu hf hk =>
    cases hu.symm.trans he
    exact ⟨hf, hk⟩

/-! #### Illegal words -/

theorem runCommand_of_illegal (h : ∀ i, decode s.pend ≠ .ok i) : runCommand s = .next (takeFault .illegalOpcode s) := by
  obtain ⟨-, hc⟩ | ⟨i, _, hi, _⟩ := runCommand_cases s
  · exact hc
  · exact absurd hi (h i)

theorem decode_ne_ok_of_no_row {c : Word} (h : ∀ r ∈ opcodeTable, r.hits c = false) (i : Instr) : decode c ≠ .ok i := by
  intro hi
  obtain ⟨r, hr, hc, -⟩ := Proofs.legalWordsAreTheTablesWords.1 c i hi
  simp [h r hr] at hc

end Sys2Proof.Machine

namespace Sys2Proof.Proofs
open Sys2Proof.Machine

/-- Settles O36: every command stops at the first check that applies, or its body runs (`exec_checksThenBody`). -/
theorem firstApplicableFaultIsReported : Obligations.FirstApplicableFaultIsReported := by
  unfold Obligations.FirstApplicableFaultIsReported
  refine ⟨fun s h => runCommand_of_illegal h, fun s i hi => ?_, fun s i k h => exec_of_headFault h,
    fun s t i h he hs ht => seedingCause_of_bodyFault h he hs ht⟩
  rw [runCommand, hi]

/-- Settles O37: a word that no row of the table has does not decode, and the engine's turn faults on it. -/
theorem illegalWordsFault : Obligations.IllegalWordsFault := by
  unfold Obligations.IllegalWordsFault
  refine ⟨fun s rest h hr hb hn => ?_, ?_⟩
  · rw [step_of_engineTurn hn hr hb]
    exact runCommand_of_illegal (s := { s with agenda := rest }) (decode_ne_ok_of_no_row h)
  · simp only [List.forall_mem_cons]
    exact ⟨by decide, by decide, by decide, by decide, nofun⟩

end Sys2Proof.Proofs
end

section
/-! ### Fault entry and what keeps the first fault (60 R262 to R266) -/

namespace Sys2Proof.Machine

variable {a : HostAccess} {i : Instr} {s t : State}

/-- A command that sets FAULT took a fault, and did nothing else but read the entropy port. -/
theorem Effect.eq_takeFault (h : Effect i s t) (hs : s.fault = false) (ht : t.fault = true) :
    ∃ k e, k ≠ .noFault ∧ t = takeFault k { s with entropy := e } := by
  cases h with
  | faulted k e hk => exact ⟨k, e, hk, rfl⟩
  | reset hi => cases ht
  | _ => cases hs.symm.trans ht

/-- `t` records the fault that `s` records. -/
def SameFault (s t : State) : Prop := t.fault = s.fault ∧ t.cause = s.cause ∧ t.faultcmd = s.faultcmd

theorem Arrival.sameFault (h : Arrival a s t) : SameFault s t := by
  cases h <;> exact ⟨rfl, rfl, rfl⟩

theorem releaseHeld_sameFault (s : State) : SameFault s (releaseHeld s) := by
  obtain ⟨-, h⟩ | ⟨a, rest, -, h⟩ := releaseHeld_cases s
  · rw [h]
    exact ⟨rfl, rfl, rfl⟩
  · rw [h]
    exact (arrive_arrival a { s with held := rest }).sameFault

theorem decode_sresetWord : decode sresetWord = .ok .sreset := rfl

/-- A step keeps the recorded fault, unless a command runs or `rst_n` is asserted. -/
theorem step_sameFault (h : step s = .next t) :
    SameFault s t ∨ (s.rstN = true ∧ s.busy = true ∧ (s.agenda = [] ∨ s.agenda.head? = some .clock)) ∨ stepAssertsReset s := by
  have m := step_move s
  generalize step s = o at m h
  cases m with
  | command rest ha hr hb =>
    refine .inr (.inl ⟨hr, hb, ?_⟩)
    obtain ha | ⟨ha, -⟩ := ha <;> simp [ha]
  | release rest ha hr hb => cases h; exact .inl (releaseHeld_sameFault { s with agenda := rest })
  | still rest ha hr => cases h; exact .inl ⟨rfl, rfl, rfl⟩
  | access a rest ha hr hb => cases h; exact .inl (arrive_arrival a { s with agenda := rest }).sameFault
  | first a rest ha hr hb hh => cases h; exact .inl (releaseHeld_sameFault s)
  | stop a rest ha hr => cases h
  | resetOn rest ha => exact .inr (.inr (by simp [stepAssertsReset, ha]))
  | resetOff rest ha => cases h; exact .inl ⟨rfl, rfl, rfl⟩

end Sys2Proof.Machine

namespace Sys2Proof.Proofs
open Sys2Proof.Machine

/-- Settles O38: the command took a fault, whose entry writes the record and clears BUSY and WAIT_ENT only. -/
theorem faultsArePrecise : Obligations.FaultsArePrecise := by
  unfold Obligations.FaultsArePrecise
  intro s t i h hs ht
  have heffect := exec_effect h
  obtain ⟨k, e, hk, rfl⟩ := heffect.eq_takeFault hs ht
  exact ⟨rfl, hk, rfl, rfl, ⟨rfl, rfl, rfl, rfl, rfl, rfl⟩, heffect.sameOutside⟩

/-- Settles O39: where a command runs in a faulted block, it is SRESET. -/
theorem firstFaultStaysUntilReset : Obligations.FirstFaultStaysUntilReset := by
  unfold Obligations.FirstFaultStaysUntilReset
  intro s t honly hs h
  obtain ⟨hfault, hrecord⟩ | ⟨hr, hb, ha⟩ | hreset := step_sameFault h
  · exact .inl ⟨hfault.trans hs, hrecord⟩
  · refine .inr (.inl ⟨hr, hb, ha, ?_⟩)
    rw [honly hb hs, decode_sresetWord]
  · exact .inr (.inr hreset)

/-- Settles O40, by `hostWritesStoreOrIssue` and `hostReadsReturnTheRegister` on an idle block. -/
theorem faultedBlockRefusesCommands : Obligations.FaultedBlockRefusesCommands := by
  unfold Obligations.FaultedBlockRefusesCommands
  intro s a rest v off hf hb hn haddr hsize
  have hwrite (hop : a.op = .write 0xFF v) (hoff : off < 256) (h8 : off % 8 = 0) :=
    (hostWritesStoreOrIssue s a rest off v hn haddr hoff h8 hsize hop).2.2 hb
  refine ⟨fun h08 hop hv => ?_, fun h08 hop hv => ?_, fun k hk h20 hop => ?_, fun h68 hop => ?_, fun hreg h8 hop => ?_⟩
  · obtain ⟨-, -, hrefuses, -⟩ := hwrite hop (by omega) (by omega)
    exact hrefuses h08 hf hv
  · obtain ⟨-, -, -, haccepts⟩ := hwrite hop (by omega) (by omega)
    exact haccepts h08 (.inr hv)
  · obtain ⟨hseed, -⟩ := hwrite hop (by omega) (by omega)
    exact hseed k hk h20
  · obtain ⟨-, hoperand, -⟩ := hwrite hop (by omega) (by omega)
    exact hoperand h68
  · obtain ⟨-, -, hreads⟩ := hostReadsReturnTheRegister s a rest off hn haddr (by omega) h8 hsize hop
    exact hreads hreg (.inl hb)

end Sys2Proof.Proofs
end

section
/-! ### The two resets and the values they leave (70 R290 to R292) -/

namespace Sys2Proof.Machine

variable {s : State} {rest : List Input}

/-- SRESET leaves the reset values (41 R160, 70 R291). -/
theorem atResetValues_softReset (s : State) : AtResetValues (softReset s) := by
  have hstatus : statusWord (softReset s) = 0 := BitVec.eq_of_toNat_eq ((statusWord_toNat _).trans rfl)
  have hport : entReq (softReset s) ≠ some true := by
    rw [entReq]
    split <;> simp
  exact ⟨rfl, rfl, rfl, rfl, rfl, rfl, rfl, rfl, rfl, rfl, rfl, hstatus, rfl, hport, rfl, rfl, rfl⟩

/-- `rst_n` writes the registers as SRESET does (70 R291). -/
theorem atResetValues_assertReset (s : State) : AtResetValues (assertReset s) :=
  atResetValues_softReset { s with rstN := false, held := [] }

theorem step_of_rstLow (ha : s.agenda = .rstLow :: rest) : step s = .next (assertReset { s with agenda := rest }) := by
  rw [step, schedule, ha]

/-- The reset state is what the assertion of `rst_n` and its release leave of it. -/
theorem inv_reset : Inv State.reset := (StepEffect.resetOff []).inv (inv_assertReset State.reset)

end Sys2Proof.Machine

namespace Sys2Proof.Proofs
open Sys2Proof.Machine

/-- Settles O35: SRESET and `rst_n` write the same values, which are the reset state's. -/
theorem resetsLeaveTheResetValues : Obligations.ResetsLeaveTheResetValues := by
  unfold Obligations.ResetsLeaveTheResetValues
  refine ⟨fun s => ⟨softReset s, rfl, atResetValues_softReset s, rfl⟩, fun s h => ?_, atResetValues_softReset State.reset⟩
  obtain ⟨rest, ha⟩ := List.head?_eq_some_iff.mp h
  exact ⟨_, step_of_rstLow ha, atResetValues_assertReset _, rfl⟩

/-- Settles O49: `assertReset` keeps the build and the outside world alone. -/
theorem resetAbortsTheCommand : Obligations.ResetAbortsTheCommand := by
  unfold Obligations.ResetAbortsTheCommand
  exact fun s rest ha => step_of_rstLow ha

/-- Settles O57: the reset state is that of a block whose `rst_n` was asserted and released, and it has no algorithm. -/
theorem resetStateIsConsistent : Obligations.ResetStateIsConsistent := by
  unfold Obligations.ResetStateIsConsistent
  exact ⟨inv_reset, nofun⟩

end Sys2Proof.Proofs
end

section
/-! ### What completes, and what stops the machine (70 R292, R304) -/

namespace Sys2Proof.Machine

variable {a : HostAccess} {i : Instr} {s t : State} {rest : List Input}

/-! #### Completion -/

/-- A command completes, or it is a SEEDENT that waits. -/
theorem CommandEnds.completes_or_waits (h : CommandEnds i s t) :
    (t.busy = false ∧ t.waitEnt = false) ∨ (i.mnemonic = "SEEDENT" ∧ t.waitEnt = true) := by
  obtain ⟨k, e, -, rfl⟩ | ⟨A, c, p, o, q, e, rfl⟩ | ⟨-, rfl⟩ | ⟨a, A, n, b, e, rfl, -, -, -, rfl⟩ := h
  · exact .inl ⟨rfl, rfl⟩
  · exact .inl ⟨rfl, rfl⟩
  · exact .inl ⟨rfl, rfl⟩
  · exact .inr ⟨rfl, rfl⟩

/-! #### The one stop -/

/-- A host access comes while `rst_n` is 0 (70 R292; log 6). -/
def accessInReset (s : State) : Prop := s.rstN = false ∧ ∃ a, s.agenda.head? = some (.host a)

theorem step_of_accessInReset (h : accessInReset s) : step s = .fault .accessDuringReset := by
  obtain ⟨hr, a, ha⟩ := h
  obtain ⟨rest, ha⟩ := List.head?_eq_some_iff.mp ha
  rw [step, schedule, ha]
  simp only [hostTurn, hr, Bool.false_eq_true, if_false]

theorem exists_step_eq_next (h : ¬accessInReset s) : ∃ t, step s = .next t := by
  have m := step_move s
  generalize step s = o at m
  cases m with
  | command rest ha hr hb =>
    obtain ⟨-, hc⟩ | ⟨i, t, -, hc, -, -⟩ := runCommand_cases { s with agenda := rest }
    · exact ⟨_, hc⟩
    · exact ⟨t, hc⟩
  | stop a rest ha hr => exact absurd ⟨hr, a, by rw [ha]; rfl⟩ h
  | _ => exact ⟨_, rfl⟩

/-! #### The platform's duty, step by step -/

theorem Arrival.rstN_agenda (h : Arrival a s t) : t.rstN = s.rstN ∧ t.agenda = s.agenda := by
  cases h <;> exact ⟨rfl, rfl⟩

theorem releaseHeld_rstN_agenda (s : State) : (releaseHeld s).rstN = s.rstN ∧ (releaseHeld s).agenda = s.agenda := by
  obtain ⟨-, h⟩ | ⟨a, others, -, h⟩ := releaseHeld_cases s
  · rw [h]
    exact ⟨rfl, rfl⟩
  · rw [h]
    exact (arrive_arrival a { s with held := others }).rstN_agenda

theorem not_accessInReset_of_platformKeepsReset (hp : platformKeepsReset s.rstN s.agenda = true) : ¬accessInReset s := by
  rintro ⟨hr, a, ha⟩
  obtain ⟨rest, ha⟩ := List.head?_eq_some_iff.mp ha
  simp [ha, hr, platformKeepsReset] at hp

theorem platformKeepsReset_of_turnIsNext (h : turnIsNext s rest) (hp : platformKeepsReset s.rstN s.agenda = true) :
    platformKeepsReset s.rstN rest = true := by
  obtain ha | ⟨-, rfl⟩ := h
  · rwa [ha] at hp
  · rfl

/-- What is left of an agenda that keeps the duty keeps it, at the level of `rst_n` the step leaves. -/
theorem platformKeepsReset_step (h : step s = .next t) (hp : platformKeepsReset s.rstN s.agenda = true) :
    platformKeepsReset t.rstN t.agenda = true := by
  have m := step_move s
  generalize step s = o at m h
  cases m with
  | command rest ha hr hb =>
    obtain ⟨-, hrst, -, hagenda, -⟩ := runCommand_sameOutside h
    rw [hrst, hagenda]
    exact platformKeepsReset_of_turnIsNext (s := s) ha hp
  | release rest ha hr hb =>
    cases h
    obtain ⟨hrst, hagenda⟩ := releaseHeld_rstN_agenda { s with agenda := rest }
    rw [hrst, hagenda]
    exact platformKeepsReset_of_turnIsNext (s := s) ha hp
  | still rest ha hr =>
    cases h
    exact platformKeepsReset_of_turnIsNext (s := s) ha hp
  | access a rest ha hr hb =>
    cases h
    obtain ⟨hrst, hagenda⟩ := (arrive_arrival a { s with agenda := rest }).rstN_agenda
    rw [ha, platformKeepsReset, Bool.and_eq_true] at hp
    rw [hrst, hagenda]
    exact hp.2
  | first a rest ha hr hb hh =>
    cases h
    obtain ⟨hrst, hagenda⟩ := releaseHeld_rstN_agenda s
    rwa [hrst, hagenda]
  | stop a rest ha hr => cases h
  | resetOn rest ha =>
    cases h
    rwa [ha] at hp
  | resetOff rest ha =>
    cases h
    rwa [ha] at hp

theorem runsFor_of_platformKeepsReset (k : Nat) (hp : platformKeepsReset s.rstN s.agenda = true) : RunsFor k s := by
  induction k generalizing s with
  | zero => trivial
  | succ k ih =>
    obtain ⟨t, ht⟩ := exists_step_eq_next (not_accessInReset_of_platformKeepsReset hp)
    exact ⟨t, ht, ih (platformKeepsReset_step ht hp)⟩

end Sys2Proof.Machine

namespace Sys2Proof.Proofs
open Sys2Proof.Machine

/-- Settles O50, by what the next state of a command can be (`exec_ends`). -/
theorem everyCommandButSeedentCompletes : Obligations.EveryCommandButSeedentCompletes := by
  unfold Obligations.EveryCommandButSeedentCompletes
  intro s i
  obtain ⟨t, ht, hends⟩ := exec_ends i s
  refine ⟨t, ht, ?_⟩
  obtain ⟨hb, hw⟩ | ⟨hi, hw⟩ := hends.completes_or_waits
  · exact ⟨fun _ => ⟨hb, hw⟩, fun _ h => by simp [hb] at h⟩
  · exact ⟨fun h => absurd hi h, fun _ _ => hw⟩

/-- Settles O55: an access in reset stops the machine, and every other move answers a next state. -/
theorem onlyAnAccessDuringResetStops : Obligations.OnlyAnAccessDuringResetStops := by
  unfold Obligations.OnlyAnAccessDuringResetStops
  intro s
  by_cases h : accessInReset s
  · rw [step_of_accessInReset h]
    exact ⟨⟨fun _ => h, fun _ => ⟨_, rfl⟩⟩, nofun⟩
  · obtain ⟨t, ht⟩ := exists_step_eq_next h
    rw [ht]
    exact ⟨⟨nofun, fun hstop => absurd hstop h⟩, nofun⟩

/-- Settles O56, by induction on the number of steps: each answers, and leaves an agenda that keeps the platform's duty. -/
theorem runsOfAWellBehavedPlatformNeverStop : Obligations.RunsOfAWellBehavedPlatformNeverStop := by
  unfold Obligations.RunsOfAWellBehavedPlatformNeverStop
  exact fun s hp k => runsFor_of_platformKeepsReset k hp

end Sys2Proof.Proofs
end

section
/-! ### A SEEDENT whose entropy port never answers (20 R82, R91; 70 R303) -/

namespace Sys2Proof.Machine

variable {a : HostAccess} {s t u : State}

/-- SEEDENT waits, the entropy port shows silent edges only, and `rst_n` stays as it is, at 1. -/
structure Starved (s : State) : Prop where
  rst : s.rstN = true
  busy : s.busy = true
  wait : s.waitEnt = true
  seedent : waitOnlySeedent s
  silent : ∀ e ∈ s.entropy, e.silent
  agenda : ∀ x ∈ s.agenda, x ≠ .rstLow ∧ x ≠ .rstHigh

/-- An access and its answer that the block gives while BUSY: a bus error, or a read of ID or STATUS (20 R82). -/
def AnsweredWhileBusy (b : Build) (p : HostAccess × Response) : Prop :=
  p.2 = .error ∨ p.1.op = .read ∧ (p.1.addr = b.baseAddr ∨ p.1.addr = b.baseAddr + 0x10)

/-- From `s` to `t` the block only waits: inputs and silent edges pass, accesses are held, and the others are answered as R82 says. -/
inductive OnlyWaits (s : State) : State → Prop
  | intro (rest : List Input) (edges : List EntSample) (held : List HostAccess) (new : List (HostAccess × Response))
      (hrest : ∀ x ∈ rest, x ∈ s.agenda) (hedges : ∀ e ∈ edges, e.silent) (hheld : s.held <+: held)
      (hnew : ∀ p ∈ new, AnsweredWhileBusy s.build p) :
      OnlyWaits s { s with agenda := rest, entropy := edges, held := held, answers := new ++ s.answers }

theorem OnlyWaits.starved (h : OnlyWaits s t) (hs : Starved s) : Starved t := by
  cases h with
  | intro rest edges held new hrest hedges hheld hnew =>
    exact {
      rst := hs.rst
      busy := hs.busy
      wait := hs.wait
      seedent := hs.seedent
      silent := hedges
      agenda := fun x hx => hs.agenda x (hrest x hx) }

/-- Inputs taken off the agenda. -/
theorem Starved.onlyWaits_pop (hs : Starved s) {rest : List Input} (hrest : ∀ x ∈ rest, x ∈ s.agenda) :
    OnlyWaits s { s with agenda := rest } :=
  .intro rest s.entropy s.held [] hrest hs.silent ⟨[], List.append_nil _⟩ nofun

theorem Starved.onlyWaits_self (hs : Starved s) : OnlyWaits s s := hs.onlyWaits_pop fun _ hx => hx

theorem OnlyWaits.trans (h₁ : OnlyWaits s t) (h₂ : OnlyWaits t u) : OnlyWaits s u := by
  cases h₁ with
  | intro rest₁ edges₁ held₁ new₁ hrest₁ _ hheld₁ hnew₁ =>
    cases h₂ with
    | intro rest edges held new hrest hedges hheld hnew =>
      rw [← List.append_assoc]
      exact .intro rest edges held (new ++ new₁) (fun x hx => hrest₁ x (hrest x hx)) hedges (hheld₁.trans hheld)
        fun p hp => (List.mem_append.mp hp).elim (hnew p) (hnew₁ p)

/-! #### The engine's turn and the host's -/

/-- The handshake finds silent edges only, and the engine has what it had. -/
theorem Starved.runCommand_onlyWaits (hs : Starved s) : ∃ t, runCommand s = .next t ∧ OnlyWaits s t := by
  obtain ⟨a, A, hd, hE, hA, hn⟩ := hs.seedent hs.wait
  obtain ⟨rfl, hg⟩ := target_some hA
  obtain ⟨edges, hgather, hedges⟩ := gather_silent s.entropy s.ebuf hs.silent hn
  have hcount : waitCount s = s.ecnt := if_pos hs.wait
  have hbuffer : waitBuffer s = s.ebuf := if_pos hs.wait
  have hrun : runCommand s = .next { s with entropy := edges } := by
    rw [runCommand, hd]
    simp only [exec_seedent_eq_seedentEnd hE (algoUsable_code hg), hcount, hbuffer, hgather, seedentEnd, ← hs.wait]
  exact ⟨_, hrun, .intro s.agenda edges s.held [] (fun _ hx => hx) hedges ⟨[], List.append_nil _⟩ nofun⟩

/-- An access that is performed while BUSY is a bus error or a read of ID or STATUS; any other is held, or is not the block's. -/
theorem Arrival.onlyWaits (h : Arrival a s t) (hs : Starved s) : OnlyWaits s t := by
  have hbusy : s.busy ≠ false := by simp [hs.busy]
  have answered (r : Response) (hr : AnsweredWhileBusy s.build (a, r)) : OnlyWaits s (answer a r s) :=
    .intro s.agenda s.entropy s.held [(a, r)] (fun _ hx => hx) hs.silent ⟨[], List.append_nil _⟩
      fun p hp => List.mem_singleton.mp hp ▸ hr
  cases h with
  | outside _ => exact hs.onlyWaits_self
  | held off ho hb hq =>
    exact .intro s.agenda s.entropy (s.held ++ [a]) [] (fun _ hx => hx) hs.silent ⟨[a], rfl⟩ nofun
  | refused off ho hq => exact answered .error (.inl rfl)
  | read off r ho hq hb =>
    obtain ⟨hreg, -, hop⟩ := requestAt_read hq
    obtain rfl := regAt_some hreg
    obtain ⟨haddr, -⟩ := windowOffset_some ho
    refine answered _ (.inr ⟨hop, ?_⟩)
    obtain rfl | rfl := hb.resolve_left hbusy
    · exact .inl haddr
    · exact .inr haddr
  | seeded off k v ho hq hb => exact absurd hb hbusy
  | operand off v ho hq hb => exact absurd hb hbusy
  | accepted off v ho hq hb hf => exact absurd hb hbusy

/-! #### Steps and runs -/

theorem mem_agenda_of_turnIsNext {rest : List Input} (h : turnIsNext s rest) : ∀ x ∈ rest, x ∈ s.agenda := by
  obtain ha | ⟨-, rfl⟩ := h
  · exact fun x hx => ha ▸ List.mem_cons_of_mem _ hx
  · nofun

theorem Starved.step_onlyWaits (hs : Starved s) : ∃ t, step s = .next t ∧ OnlyWaits s t := by
  have m := step_move s
  generalize step s = o at m
  cases m with
  | command rest ha hr hb =>
    have hpop := hs.onlyWaits_pop (mem_agenda_of_turnIsNext ha)
    obtain ⟨t, ht, h⟩ := (hpop.starved hs).runCommand_onlyWaits
    exact ⟨t, ht, hpop.trans h⟩
  | access a rest ha hr hb =>
    have hpop := hs.onlyWaits_pop (rest := rest) fun x hx => ha ▸ List.mem_cons_of_mem _ hx
    exact ⟨_, rfl, hpop.trans ((arrive_arrival a _).onlyWaits (hpop.starved hs))⟩
  | release rest ha hr hb => exact absurd hb (by simp [hs.busy])
  | first a rest ha hr hb hh => exact absurd hb (by simp [hs.busy])
  | still rest ha hr => exact absurd hr (by simp [hs.rst])
  | stop a rest ha hr => exact absurd hr (by simp [hs.rst])
  | resetOn rest ha => exact absurd rfl (hs.agenda .rstLow (by simp [ha])).1
  | resetOff rest ha => exact absurd rfl (hs.agenda .rstHigh (by simp [ha])).2

theorem Starved.run_onlyWaits (k : Nat) (hs : Starved s) : ∃ t, core.run k s = .next t ∧ OnlyWaits s t := by
  induction k generalizing s with
  | zero => exact ⟨s, rfl, hs.onlyWaits_self⟩
  | succ k ih =>
    obtain ⟨u, hu, hwaits⟩ := hs.step_onlyWaits
    obtain ⟨t, ht, h⟩ := ih (hwaits.starved hs)
    exact ⟨t, (run_succ k hu).trans ht, hwaits.trans h⟩

end Sys2Proof.Machine

namespace Sys2Proof.Proofs
open Sys2Proof.Machine

/-- Settles O51, by induction on the number of steps: each leaves a starved block that has only waited. -/
theorem starvedSeedentWaitsForEver : Obligations.StarvedSeedentWaitsForEver := by
  unfold Obligations.StarvedSeedentWaitsForEver
  intro s k hr hb hw hseedent hsilent hagenda
  obtain ⟨t, ht, h⟩ := Starved.run_onlyWaits k ⟨hr, hb, hw, hseedent, hsilent, hagenda⟩
  cases h with
  | intro rest edges held new _ _ hheld hnew =>
    exact ⟨_, ht, hb, hw, ⟨rfl, rfl, rfl, rfl, rfl, rfl⟩, hheld, new, rfl, hnew⟩

end Sys2Proof.Proofs
end
